-- ==== Sys2Proof/Word.lean ====
section
/-!
DEFINITION. The two bit-vector types of the encoder (spec 00_scope.md R8, R9): a byte, and the 64-bit word of the
command descriptor. Bit 0 is the least significant bit of either (R9, conflict C2).
-/

namespace Sys2Proof

/-- A byte: 8 bits (R8, R10). -/
abbrev Byte := BitVec 8

/-- A descriptor word (`CW0`, `CW1`), and every 64-bit register (R8, R20, R80). -/
abbrev Word := BitVec 64

end Sys2Proof
end

