-- ==== Sys2Proof/Config.lean ====
section
/-!
DEFINITION. What one instance of the encoder fixes (spec 00_scope.md section 4). The one constant is `MAXLEN`; the spec
leaves its value OPEN between two bounds (R6, decision D6), so it rests on an opaque number and no proof can use its value.
The other open parameter, `KEYSRC` (R7), is an input: its draws stand in the environment part of State.
-/

namespace Sys2Proof.Config

/-- R6, lower bound: "implementations must support at least up to 2^32−1 without overflow". -/
def minMaxlen : Nat := 2 ^ 32 - 1

/-- R6, upper bound: "protocol ceiling (2^63−1 conceptually". -/
def maxMaxlen : Nat := 2 ^ 63 - 1

/-- The open part of `MAXLEN` (R6, D6): an uninterpreted number. Log entry 1. -/
opaque maxlenOpen : Nat

/-- `MAXLEN`, the largest effective payload length this instance accepts: any number between the two bounds of R6 and
nothing more is known of it (log entry 1). -/
def maxlen : Nat := minMaxlen + maxlenOpen % (maxMaxlen - minMaxlen + 1)

end Sys2Proof.Config
end

