-- ==== Sys2Proof/Syntax.lean ====
section
/-!
DEFINITION. The six commands of the encoder (spec 30_encoding.md R84; opcode_table.json), each with exactly the named
fields it reads (R85). A field a command ignores is no argument of its constructor, so the machine cannot depend on it.
-/

namespace Sys2Proof

/-- A command, as the host's descriptor names it. `masked`, `fin`, `first` are DOC's arguments of those names (R81);
`len` is `LEN = CW1` (R83); `opc` is the wire opcode field, all 16 values (a reserved one is refused when the command is
accepted, R98, R193); `code` is `CODE` where `CODEV = 1` and `none` where `CODEV = 0`, DOC's "`code` is omitted" (R81, R82). -/
inductive Instr where
  | synth (fin masked : Bool) (opc : BitVec 4) (len : Word)
  | text (masked : Bool) (len : Word)
  | binary (masked fin first : Bool) (len : Word)
  | close (masked : Bool) (code : Option (BitVec 32)) (len : Word)
  | ping (masked : Bool)
  | pong (masked : Bool) (len : Word)
  deriving DecidableEq, Repr

/-- Why a descriptor selects no command (R88, lines 1 and 2). -/
inductive DecodeError where
  /-- `CW0[7]` or a bit of `CW0[31:12]` is set (R86). -/
  | rsvdBits
  /-- `KIND` is 6 or 7 (R87). -/
  | badKind
  deriving DecidableEq, Repr

end Sys2Proof
end

