-- ==== Sys2Proof/Decode.lean ====
section
/-!
DEFINITION. Decoding a command descriptor, and encoding a command (spec 30_encoding.md Part A). A descriptor is two 64-bit
words presented whole (R80); it has no byte order and is not fetched from a memory (20_memory.md R57, R69).
-/

namespace Sys2Proof

/-! ### Fields of `CW0` (R81) -/

def kindOf (cw0 : Word) : BitVec 3 := cw0.extractLsb' 0 3
def maskedOf (cw0 : Word) : Bool := cw0.getLsbD 3
def finOf (cw0 : Word) : Bool := cw0.getLsbD 4
def firstOf (cw0 : Word) : Bool := cw0.getLsbD 5
def codevOf (cw0 : Word) : Bool := cw0.getLsbD 6
def opcOf (cw0 : Word) : BitVec 4 := cw0.extractLsb' 8 4
def codeOf (cw0 : Word) : BitVec 32 := cw0.extractLsb' 32 32

/-- The reserved bits `CW0[7]` and `CW0[31:12]` (R86). -/
def rsvdMask : Word := 0x00000000FFFFF080#64

/-- R86: a reserved bit is set. -/
def rsvdSet (cw0 : Word) : Bool := cw0 &&& rsvdMask != 0

/-! ### Value checks on decoded fields -/

/-- The wire opcodes that are defined: 0, 1, 2, 8, 9, 10 (R91). -/
def validOpcode (opc : BitVec 4) : Bool :=
  opc == 0 || opc == 1 || opc == 2 || opc == 8 || opc == 9 || opc == 10

/-- A close code that two bytes can hold (R82, R194). -/
def representableCode (code : BitVec 32) : Bool := decide (code.toNat ≤ 65535)

/-- The decoder (R88), total: reserved bits first, then `KIND`, then the fields the command reads (R85). -/
def decode (cw0 cw1 : Word) : Except DecodeError Instr :=
  if rsvdSet cw0 then .error .rsvdBits
  else match (kindOf cw0).toNat with
    | 0 => .ok (.synth (finOf cw0) (maskedOf cw0) (opcOf cw0) cw1)
    | 1 => .ok (.text (maskedOf cw0) cw1)
    | 2 => .ok (.binary (maskedOf cw0) (finOf cw0) (firstOf cw0) cw1)
    | 3 => .ok (.close (maskedOf cw0) (if codevOf cw0 then some (codeOf cw0) else none) cw1)
    | 4 => .ok (.ping (maskedOf cw0))
    | 5 => .ok (.pong (maskedOf cw0) cw1)
    | _ => .error .badKind

/-! ### The encoder of descriptors -/

/-- `CW0` from its fields, reserved bits 0 (R81), highest field first. -/
def packCw0 (code : BitVec 32) (opc : BitVec 4) (codev first fin masked : Bool) (kind : BitVec 3) : Word :=
  code ++ 0#20 ++ opc ++ 0#1 ++ BitVec.ofBool codev ++ BitVec.ofBool first ++ BitVec.ofBool fin
    ++ BitVec.ofBool masked ++ kind

/-- The descriptor `(CW0, CW1)` of a command (R84, R100): "Fields a command ignores and reserved bits assemble to 0". -/
def encode : Instr → Word × Word
  | .synth fin masked opc len => (packCw0 0 opc false false fin masked 0, len)
  | .text masked len => (packCw0 0 0 false false false masked 1, len)
  | .binary masked fin first len => (packCw0 0 0 false first fin masked 2, len)
  | .close masked (some code) len => (packCw0 code 0 true false false masked 3, len)
  | .close masked none len => (packCw0 0 0 false false false masked 3, len)
  | .ping masked => (packCw0 0 0 false false false masked 4, 0)
  | .pong masked len => (packCw0 0 0 false false false masked 5, len)

/-! ### Table words: the first word is `CW0` (bits 63..0), the second `CW1` (bits 127..64); bits above `nbits` are 0 -/

/-- `CW0` of a table word. -/
def tableCw0 (nbits w : Nat) : Word := BitVec.ofNat 64 (w % 2 ^ nbits)

/-- `CW1` of a table word. -/
def tableCw1 (nbits w : Nat) : Word := BitVec.ofNat 64 (w % 2 ^ nbits / 2 ^ 64)

/-- What the decoder reads from a table word. -/
def decodeTableWord (nbits w : Nat) : Option Instr :=
  match decode (tableCw0 nbits w) (tableCw1 nbits w) with
  | .ok i => some i
  | .error _ => none

end Sys2Proof
end

