-- ==== Sys2Proof/Machine/State.lean ====
section
/-!
DEFINITION. The state of the machine. `Encoder` is the encoder's register set, the whole of it and nothing else (spec
10_state.md R20). R30 keeps the environment (host, payload source, key source, sink) outside the encoder's record: it
stands beside it in `Env`, as plain data, so that one deterministic step can show every behaviour the environment may cause.
-/

namespace Sys2Proof.Machine

/-! ### Values -/

/-- A masking key, the four separate bytes `[k0, k1, k2, k3]` (R53, R56). -/
structure Key where
  k0 : Byte
  k1 : Byte
  k2 : Byte
  k3 : Byte
  deriving DecidableEq, Repr

/-- `PHASE` (R20, R25). Value 3 never occurs and has no constructor. `noValue` is `PHASE` before the first RESET, which
"has no value" (R223); no step leads to it. -/
inductive Phase where
  | noValue
  | idle
  | hdr
  | pay
  deriving DecidableEq, Repr

/-- `STATUS` (R26); value 3 is never produced and has no constructor. -/
inductive Status where
  | ok
  | invalidArg
  | capacity
  deriving DecidableEq, Repr

/-- `DETAIL` (R26, R196); values 6 and 7 are never produced and have no constructor. -/
inductive Detail where
  | none
  | rsvdBits
  | badKind
  | badOpcode
  | badCloseCode
  | tooLong
  deriving DecidableEq, Repr

/-- The five causes of an error result (R191 to R195), in the order of their priority (R197). -/
inductive Cause where
  | rsvdBits
  | badKind
  | badOpcode
  | badCloseCode
  | tooLong
  deriving DecidableEq, Repr

/-- A resolved command, `Request(fin, opc, mask, pfx, n)` (R159): `pfx` are the effective payload's bytes that come from
the descriptor, `n` the number of its bytes that come from the payload source. -/
structure Request where
  fin  : Bool
  opc  : BitVec 4
  mask : Bool
  pfx  : List Byte
  n    : Nat
  deriving DecidableEq, Repr

/-! ### The encoder's registers (R20) -/

/-- The encoder's registers. `K` and `KV` share one home: while `KV = 0`, `K` is no value and "a model must not give it
one" (R23), so `k` is `none` exactly when `KV = 0`. `HBUF` is held up to its last byte that has a value (R24: "Bytes
`HBUF[HLEN..13]` are no value and are never read"); that its length is `HLEN`, at most 14, is part of the invariant. -/
structure Encoder where
  /-- `PHASE`, sequencing phase. -/
  phase  : Phase
  /-- `HIDX`, index of the next header byte to emit. -/
  hidx   : BitVec 4
  /-- `PIDX`, index of the next effective-payload byte to emit. -/
  pidx   : BitVec 64
  /-- `Q_FIN`, the request's fin. -/
  qFin   : Bool
  /-- `Q_OPC`, the request's wire opcode. -/
  qOpc   : BitVec 4
  /-- `Q_MASK`, the request's masked flag. -/
  qMask  : Bool
  /-- `Q_PL`, the effective payload length. -/
  qPl    : BitVec 64
  /-- `Q_PFXN`, how many bytes of the effective payload come from the descriptor. -/
  qPfxn  : BitVec 2
  /-- `Q_PFX[0]`. -/
  qPfx0  : Byte
  /-- `Q_PFX[1]`. -/
  qPfx1  : Byte
  /-- `K[0..3]` with its valid bit `KV`: `some key` when `KV = 1`, `none` when `KV = 0`. -/
  k      : Option Key
  /-- `HBUF[0..HLEN-1]`, the header of the frame in flight. -/
  hbuf   : List Byte
  /-- `HLEN`, the header length. -/
  hlen   : BitVec 4
  /-- `STATUS`, result class of the last command. -/
  status : Status
  /-- `DETAIL`, cause detail of the last command. -/
  detail : Detail
  /-- `R_HLEN`, header length of the last command. -/
  rHlen  : BitVec 4
  /-- `R_FLEN`, frame length of the last command. -/
  rFlen  : BitVec 64
  deriving DecidableEq, Repr

/-! ### The environment (R15, R30, R50) -/

/-- The payload input space `PIN` of the command in flight (R52): the source bytes that can be read now, by index, in
rising order of index. An index that is not listed is a byte the source cannot answer yet. -/
abbrev Memory := List Host.Cell

/-- One request of the host: the descriptor it presents on `CMD`, and the payload bytes the source has ready for it. -/
structure Command where
  cw0 : Word
  cw1 : Word
  src : List Byte
  deriving DecidableEq, Repr

/-- What an agent of the environment can do between two steps of the encoder (R15, R177). -/
inductive EnvEvent where
  /-- The host presents, changes or withdraws what stands on `CMD` and its list of commands still to present. -/
  | present (cmds : List Command)
  /-- The payload source supplies, or some agent changes, byte `i` of the command in flight. -/
  | supply (i : Nat) (b : Byte)
  /-- The key source delivers a draw. -/
  | deliver (key : Key)
  /-- The sink becomes able, or unable, to take a byte. -/
  | sink (ready : Bool)
  /-- The host asserts or releases the reset signal. -/
  | resetLine (asserted : Bool)
  deriving DecidableEq, Repr

/-- The environment of the encoder. -/
structure Env where
  /-- `CMD`: its first entry is the descriptor presented now, the rest are the host's commands still to present. -/
  cmd       : List Command
  /-- `PIN` of the command in flight. -/
  pin       : Memory
  /-- `KEYSRC`: the draws that are ready, the next one first. -/
  keys      : List Key
  /-- `FOUT`: what the sink has taken, oldest first, each byte with its index in its frame. -/
  fout      : List Host.Cell
  /-- The sink can take a byte. -/
  sinkReady : Bool
  /-- The reset signal is asserted. -/
  resetLine : Bool
  /-- What the environment will still do: the first entry before the next step, and so on. -/
  inputs    : List (List EnvEvent)
  deriving DecidableEq, Repr

structure State where
  enc : Encoder
  env : Env
  deriving DecidableEq, Repr

/-! ### How a step can stop -/

/-- A register that can hold no value when a step wants to read it (R31). -/
inductive NoValueReg where
  | hbuf
  | k
  | qPfx
  deriving DecidableEq, Repr

/-- Reasons the machine stops. No state that a run from reset reaches raises one. -/
inductive Fault where
  /-- Raised by every step but RESET before the first RESET, when `PHASE` has no value (R223; treatment `fault`, U10). Safe. -/
  | beforeFirstReset
  /-- Raised by EMIT_HDR or EMIT_PAY where it would read a register that holds no value: `HBUF[j]` with `j >= HLEN`, `K`
  while `KV = 0`, or a `Q_PFX` byte that does not exist (R31; treatment `fault`, U9). Safe. -/
  | noValue (reg : NoValueReg)
  deriving DecidableEq, Repr

/-- Reasons the model gives an instruction no meaning. -/
inductive Refusal where
  /-- Raised by an arm of `exec` that has no meaning yet; no arm is left that does. Safe. -/
  | notModelled (mnemonic : String)
  deriving DecidableEq, Repr

/-! ### Reset -/

/-- The registers right after RESET (R32, R220). `PHASE`, `KV`, `STATUS`, `DETAIL`, `R_HLEN` and `R_FLEN` are the spec's.
Every other register has "no value" there; each gets 0 (DESIGN CHOICE, unsafe, log entry 2), and no byte of `HBUF` and no
key is held. -/
def Encoder.reset : Encoder where
  phase  := .idle
  hidx   := 0
  pidx   := 0
  qFin   := false
  qOpc   := 0
  qMask  := false
  qPl    := 0
  qPfxn  := 0
  qPfx0  := 0
  qPfx1  := 0
  k      := none
  hbuf   := []
  hlen   := 0
  status := .ok
  detail := .none
  rHlen  := 0
  rFlen  := 0

/-- The environment a run starts from: nothing presented, nothing supplied, no draw ready, nothing taken, a sink that is
ready, reset released (DESIGN CHOICE, log entry 3: the spec gives the environment no reset). -/
def Env.initial : Env where
  cmd       := []
  pin       := []
  keys      := []
  fout      := []
  sinkReady := true
  resetLine := false
  inputs    := []

/-- The machine right after reset. -/
def State.reset : State where
  enc := Encoder.reset
  env := Env.initial

end Sys2Proof.Machine
end

