-- ==== Sys2Proof/Machine/Operands.lean ====
section
/-!
DEFINITION. The value level of the encoder (spec 40_header_synthesis.md, 41_frame_builders.md): the header, the masker, the
resolution of a descriptor, the frame. Lengths are natural numbers and never wrap (R11, R144).
-/

namespace Sys2Proof.Machine

/-! ### Big-endian bytes (R12, R56) -/

/-- `be16(n) = [n[15:8], n[7:0]]`. -/
def be16 (n : BitVec 16) : List Byte := [n.extractLsb' 8 8, n.extractLsb' 0 8]

/-- `be64(n)`, most significant byte first. -/
def be64 (n : BitVec 64) : List Byte :=
  [n.extractLsb' 56 8, n.extractLsb' 48 8, n.extractLsb' 40 8, n.extractLsb' 32 8,
   n.extractLsb' 24 8, n.extractLsb' 16 8, n.extractLsb' 8 8, n.extractLsb' 0 8]

/-! ### The header (R121 to R133) -/

/-- `Byte0(fin, opc)` (R121). The reserved bits 6, 5, 4 stay 0 (R122). -/
def byte0 (fin : Bool) (opc : BitVec 4) : Byte := (if fin then 0x80#8 else 0x00#8) ||| opc.setWidth 8

/-- `Len7(PL)` (R123). -/
def len7 (pl : Nat) : Nat := if pl < 126 then pl else if pl < 65536 then 126 else 127

/-- `Byte1(mask, PL)` (R123). -/
def byte1 (mask : Bool) (pl : Nat) : Byte := (if mask then 0x80#8 else 0x00#8) ||| BitVec.ofNat 8 (len7 pl)

/-- `ExtLen(PL)` (R125). -/
def extLen (pl : Nat) : List Byte :=
  if pl < 126 then [] else if pl < 65536 then be16 (BitVec.ofNat 16 pl) else be64 (BitVec.ofNat 64 pl)

/-- `HLen(mask, PL)` (R129). -/
def hLen (mask : Bool) (pl : Nat) : Nat := 2 + (extLen pl).length + (if mask then 4 else 0)

/-- The four key bytes in index order (R53, R131). -/
def Key.toList (key : Key) : List Byte := [key.k0, key.k1, key.k2, key.k3]

/-- `key[i mod 4]` (R134): the two low bits of `i` select the byte. -/
def Key.byte (key : Key) (i : Nat) : Byte :=
  match i % 4 with
  | 0 => key.k0
  | 1 => key.k1
  | 2 => key.k2
  | _ => key.k3

/-- The key bytes of a header: none when there is no key. -/
def keyBytes : Option Key → List Byte
  | none => []
  | some key => key.toList

/-- `Header(fin, opc, mask, PL, key)` (R133). A key is "present iff masked=true" (R23, R130), so `mask` is the presence of
the key and an unmasked header has no key operand. -/
def header (fin : Bool) (opc : BitVec 4) (key : Option Key) (pl : Nat) : List Byte :=
  [byte0 fin opc, byte1 key.isSome pl] ++ extLen pl ++ keyBytes key

/-! ### The masker (R134) -/

/-- The XOR stream from payload index `i` on. -/
def maskFrom (key : Key) : Nat → List Byte → List Byte
  | _, [] => []
  | i, b :: bs => (b ^^^ key.byte i) :: maskFrom key (i + 1) bs

/-- `MaskBytes(key, P)` (R134): each frame starts at `key[0]` (R135). -/
def maskBytes (key : Key) (p : List Byte) : List Byte := maskFrom key 0 p

/-- The payload part of a frame: masked where there is a key, else `P` unchanged (R136, R140). -/
def payloadPart (key : Option Key) (p : List Byte) : List Byte :=
  match key with
  | none => p
  | some key => maskBytes key p

/-- `FrameOf(fin, opc, mask, P, key)` (R140). -/
def frameOf (fin : Bool) (opc : BitVec 4) (key : Option Key) (p : List Byte) : List Byte :=
  header fin opc key p.length ++ payloadPart key p

/-! ### The resolution of a descriptor (R159) -/

/-- `PL = len(pfx) + n`, a natural number (R195). -/
def Request.pl (r : Request) : Nat := r.pfx.length + r.n

/-- `PL > MAXLEN` (R195). The bounds of R6 are asked first, which changes nothing (lemma `exceeds_iff`) and settles the
test without the open value of `MAXLEN` wherever the spec settles it. -/
def exceeds (maxlen pl : Nat) : Bool :=
  if pl ≤ Config.minMaxlen then false else if Config.maxMaxlen < pl then true else decide (maxlen < pl)

/-- The part of `EmitFrame(fin, opc, mask, pfx, n)` (41_frame_builders.md, its opening) that decides: refuse what is too
long, else request the frame. Emitting it is the serial steps' work. -/
def emitFrame (maxlen : Nat) (fin : Bool) (opc : BitVec 4) (mask : Bool) (pfx : List Byte) (n : Nat) :
    Except Cause Request :=
  if exceeds maxlen (pfx.length + n) then .error .tooLong else .ok ⟨fin, opc, mask, pfx, n⟩

/-- A decode error as a cause of an error result (R191, R192). -/
def decodeCause : DecodeError → Cause
  | .rsvdBits => .rsvdBits
  | .badKind => .badKind

/-- The close code's two bytes, `be16(CODE)` (R153, R154). -/
def closeBytes (code : BitVec 32) : List Byte := be16 (code.setWidth 16)

/-- Line 5 of `Resolve`, the case `KIND = 3`: the prefix and the number of source bytes of a close frame (R153, R159). -/
def closePayload (codev : Bool) (code : BitVec 32) (len : Nat) : List Byte × Nat :=
  if codev = false ∨ code.toNat = 1005 then ([], 0) else (closeBytes code, len)

/-- Line 5 of `Resolve` (R159): `(fin, opc, pfx, n)` of each `KIND`. -/
def resolveArgs (cw0 cw1 : Word) : Bool × BitVec 4 × List Byte × Nat :=
  match (kindOf cw0).toNat with
  | 0 => (finOf cw0, opcOf cw0, [], cw1.toNat)
  | 1 => (true, 1, [], cw1.toNat)
  | 2 => (finOf cw0, if firstOf cw0 then 2 else 0, [], cw1.toNat)
  | 3 => (true, 8, closePayload (codevOf cw0) (codeOf cw0) cw1.toNat)
  | 4 => (true, 9, [], 0)
  | _ => (true, 10, [], cw1.toNat)

/-- `Resolve(CW0, CW1)` (R159), line by line; the order of its tests is the priority of R197. It is written from R159
alone: the machine's own commands (Synth.lean, Builders.lean) are written from their own rules, and that the two agree is
an obligation. -/
def resolve (maxlen : Nat) (cw0 cw1 : Word) : Except Cause Request :=
  if rsvdSet cw0 then .error .rsvdBits
  else if 6 ≤ (kindOf cw0).toNat then .error .badKind
  else if (kindOf cw0).toNat = 0 ∧ validOpcode (opcOf cw0) = false then .error .badOpcode
  else if (kindOf cw0).toNat = 3 ∧ codevOf cw0 ∧ 65535 < (codeOf cw0).toNat then .error .badCloseCode
  else
    let (fin, opc, pfx, n) := resolveArgs cw0 cw1
    if exceeds maxlen (pfx.length + n) then .error .tooLong
    else .ok ⟨fin, opc, maskedOf cw0, pfx, n⟩

/-- `Frame(CW0, CW1, src, key)`, the complete value-level function (R140). `key` is used only if the request is masked. The
rule supposes a source of at least `n` bytes (R178); for a shorter one, where the spec gives no frame, the model answers the
frame of the bytes there are, whose header announces their number (DESIGN CHOICE, log entry 18). The machine then announces
`LEN` and holds (R177). -/
def frame (maxlen : Nat) (cw0 cw1 : Word) (src : List Byte) (key : Key) : Except Cause (List Byte) :=
  match resolve maxlen cw0 cw1 with
  | .error c => .error c
  | .ok r => .ok (frameOf r.fin r.opc (if r.mask then some key else none) (r.pfx ++ src.take r.n))

/-! ### How a reader of the output tells the header's length (R97) -/

/-- The number a big-endian byte sequence stands for. -/
def beValue (bytes : List Byte) : Nat := bytes.foldl (fun v b => 256 * v + b.toNat) 0

/-- `ext` of R97, from header byte 1. -/
def extOf (b1 : Byte) : Nat :=
  if (b1.extractLsb' 0 7).toNat < 126 then 0 else if (b1.extractLsb' 0 7).toNat = 126 then 2 else 8

/-- `(HL, PL)` of a frame, read from its bytes (R97). The rule supposes that header byte 1 and all of the extended length are
there. Where the bytes end before that (a header cut short by RESET, R221) the spec gives no reading, and the model answers
`none`, no number made of the bytes there are (DESIGN CHOICE, log entry 19). -/
def readLengths (bytes : List Byte) : Option (Nat × Nat) :=
  match bytes with
  | _ :: b1 :: rest =>
    let ext := extOf b1
    if rest.length < ext then none
    else some (2 + ext + (if b1.getLsbD 7 then 4 else 0),
      if ext = 0 then (b1.extractLsb' 0 7).toNat else beValue (rest.take ext))
  | _ => none

end Sys2Proof.Machine
end

