-- ==== Sys2Proof/Machine/Flags.lean ====
section
/-!
DEFINITION. The result registers and `BUSY`, the encoder's only status (spec 10_state.md R26, R27; 60_exceptions.md R196).
-/

namespace Sys2Proof.Machine

/-- `STATUS` as the host reads it (R26). -/
def Status.code : Status → BitVec 2
  | .ok => 0
  | .invalidArg => 1
  | .capacity => 2

/-- `DETAIL` as the host reads it (R26). -/
def Detail.code : Detail → BitVec 3
  | .none => 0
  | .rsvdBits => 1
  | .badKind => 2
  | .badOpcode => 3
  | .badCloseCode => 4
  | .tooLong => 5

/-- The `STATUS` of an error (R196). -/
def Cause.status : Cause → Status
  | .rsvdBits => .invalidArg
  | .badKind => .invalidArg
  | .badOpcode => .invalidArg
  | .badCloseCode => .invalidArg
  | .tooLong => .capacity

/-- The `DETAIL` of an error (R196). -/
def Cause.detail : Cause → Detail
  | .rsvdBits => .rsvdBits
  | .badKind => .badKind
  | .badOpcode => .badOpcode
  | .badCloseCode => .badCloseCode
  | .tooLong => .tooLong

/-- The result registers of an accepted command (R142): `HL + PL` fits 64 bits (R26). -/
def Encoder.resultOk (mask : Bool) (pl : Nat) (e : Encoder) : Encoder :=
  { e with status := .ok, detail := .none,
           rHlen := BitVec.ofNat 4 (hLen mask pl), rFlen := BitVec.ofNat 64 (hLen mask pl + pl) }

/-- The result registers of a refused command (R172, R198). -/
def Encoder.resultError (c : Cause) (e : Encoder) : Encoder :=
  { e with status := c.status, detail := c.detail, rHlen := 0, rFlen := 0 }

/-- `KV` (R20, R23). -/
def Encoder.kv (e : Encoder) : Bool := e.k.isSome

/-- `BUSY`, the value `PHASE != IDLE` (R27). Before the first RESET, where `PHASE` has no value (R223), the spec gives `BUSY`
none; the model then reads it as 1 (DESIGN CHOICE, log entry 17). -/
def Encoder.busy (e : Encoder) : Bool := decide (e.phase ≠ .idle)

/-- What the host reads on `RES` (R50, R55). -/
structure Res where
  busy   : Bool
  status : BitVec 2
  detail : BitVec 3
  rHlen  : BitVec 4
  rFlen  : BitVec 64
  deriving DecidableEq, Repr

/-- A read of `RES`: it has no side effect (R55, R61). Before the first RESET the spec gives it no value; the model then reads
`BUSY` as 1 and the result registers as whatever they hold (DESIGN CHOICE, log entry 17). -/
def State.res (s : State) : Res where
  busy   := s.enc.busy
  status := s.enc.status.code
  detail := s.enc.detail.code
  rHlen  := s.enc.rHlen
  rFlen  := s.enc.rFlen

end Sys2Proof.Machine
end

