-- ==== Sys2Proof/Machine/Ops.lean ====
section
/-!
DEFINITION. The shared operations of the machine: the payload input space, the environment's moves, ACCEPT with its error
entry, emitting a byte, completing a frame, RESET (spec 20_memory.md, 42_serial_sequencing.md, 60_exceptions.md,
70_reset_and_hazards.md).
-/

namespace Sys2Proof.Machine

/-! ### `PIN`, the payload input space (R52), a list of cells in one canonical form: rising indexes -/

/-- The canonical form: indexes strictly rise, so equal spaces are equal lists. An index that is not listed reads as no
byte at all, so every listed cell counts. -/
def Memory.wf : Memory → Bool
  | [] => true
  | [_] => true
  | c :: d :: m => decide (c.1 < d.1) && Memory.wf (d :: m)

/-- The byte at index `i`, or `none` where the source cannot answer it (R177). -/
def Memory.read : Memory → Nat → Option Byte
  | [], _ => none
  | c :: m, i => if c.1 = i then some c.2 else Memory.read m i

/-- Byte `i` becomes `b`: the payload source's move, never the encoder's (R60). -/
def Memory.write : Memory → Nat → Byte → Memory
  | [], i, b => [(i, b)]
  | c :: m, i, b =>
    if i < c.1 then (i, b) :: c :: m
    else if i = c.1 then (i, b) :: m
    else c :: Memory.write m i b

/-- The space that holds a byte sequence from index `i` on. -/
def Memory.ofBytesFrom : Nat → List Byte → Memory
  | _, [] => []
  | i, b :: bs => (i, b) :: Memory.ofBytesFrom (i + 1) bs

/-- The space of one command's source bytes: "index 0 is always the first source byte of the command in flight" (R52). -/
def Memory.ofBytes (src : List Byte) : Memory := Memory.ofBytesFrom 0 src

/-- `SrcRead(i)` (R52, R61): a read changes nothing. -/
def srcRead (v : Env) (i : Nat) : Option Byte := Memory.read v.pin i

/-! ### The environment's moves (R15, R177) -/

def Env.apply (v : Env) : EnvEvent → Env
  | .present cmds => { v with cmd := cmds }
  | .supply i b => { v with pin := Memory.write v.pin i b }
  | .deliver key => { v with keys := v.keys ++ [key] }
  | .sink ready => { v with sinkReady := ready }
  | .resetLine asserted => { v with resetLine := asserted }

/-- The environment makes the moves it has for the time before this step. They change no register of the encoder (R181). -/
def State.takeInputs (s : State) : State :=
  match s.env.inputs with
  | [] => s
  | es :: rest => { s with env := es.foldl Env.apply { s.env with inputs := rest } }

/-! ### Registers that can hold no value (R31) -/

/-- `HBUF[j]`: no value for `j >= HLEN` (R24, R31). -/
def Encoder.hbufAt (e : Encoder) (j : Nat) : Option Byte := if j < e.hlen.toNat then e.hbuf[j]? else none

/-- `Q_PFX[j]`: there are two (R20). -/
def Encoder.qPfxAt (e : Encoder) (j : Nat) : Option Byte :=
  match j with
  | 0 => some e.qPfx0
  | 1 => some e.qPfx1
  | _ => none

/-! ### Emitting (R54) and completing (R176) -/

/-- `Emit(b)` as byte `j` of the frame: the sink takes it (R54). -/
def State.emit (j : Nat) (b : Byte) (s : State) : State :=
  { s with env := { s.env with fout := s.env.fout ++ [(j, b)] } }

/-- The last byte is out: `PHASE <- IDLE; KV <- 0` (R173, R174, R176). -/
def Encoder.complete (e : Encoder) : Encoder := { e with phase := .idle, k := none }

/-! ### ACCEPT (R171, R172) -/

/-- The error entry, the encoder's one way to take an exception (R172, R198): `RES` is written, the descriptor is consumed
and every other register stays; `rest` is what stands on `CMD` after it. There is no handler, nothing is saved and there is
no return: the encoder is at once ready for the next descriptor (R200). -/
def State.takeError (c : Cause) (rest : List Command) (s : State) : State :=
  { s with enc := s.enc.resultError c, env := { s.env with cmd := rest } }

/-- The registers an accepted request writes (R171). `Q_PFX` keeps its bytes where the request has no prefix. A masked
request comes with its key; an unmasked one leaves `KV = 0`. -/
def Encoder.startFrame (r : Request) (key : Option Key) (e : Encoder) : Encoder :=
  { e.resultOk r.mask r.pl with
      qFin := r.fin, qOpc := r.opc, qMask := r.mask, qPl := BitVec.ofNat 64 r.pl,
      qPfxn := BitVec.ofNat 2 r.pfx.length,
      qPfx0 := r.pfx.getD 0 e.qPfx0, qPfx1 := r.pfx.getD 1 e.qPfx1,
      k := key, hlen := BitVec.ofNat 4 (hLen r.mask r.pl),
      hbuf := header r.fin r.opc key r.pl,
      hidx := 0, pidx := 0, phase := .hdr }

/-- ACCEPT, success (R171): the registers are written, descriptor `c` and the key draw are consumed, and `PIN` is the
command's own source bytes from here on. -/
def State.startFrame (r : Request) (key : Option Key) (c : Command) (rest : List Command) (keys : List Key)
    (s : State) : State :=
  { s with enc := s.enc.startFrame r key,
           env := { s.env with cmd := rest, keys := keys, pin := Memory.ofBytes c.src } }

/-- ACCEPT of a command whose resolution is `r`. It waits where the encoder is busy (R180), where no descriptor is presented
and where a masked, error-free command finds no key draw ready (R177); an error result never waits for a key (R177). -/
def accept (r : Except Cause Request) (s : State) : Host.Outcome State Fault Refusal :=
  match s.enc.phase, s.env.cmd with
  | .noValue, _ => .fault .beforeFirstReset
  | .hdr, _ => .next s
  | .pay, _ => .next s
  | .idle, [] => .next s
  | .idle, c :: rest =>
    match r with
    | .error cause => .next (s.takeError cause rest)
    | .ok r =>
      if r.mask then
        match s.env.keys with
        | [] => .next s
        | key :: keys => .next (s.startFrame r (some key) c rest keys)
      else .next (s.startFrame r none c rest s.env.keys)

/-! ### RESET (R220) -/

/-- RESET: the registers are those after reset whatever they were; no byte is emitted or read, no key drawn, no descriptor
consumed. The bytes of an abandoned frame stay emitted (R221). -/
def State.resetStep (s : State) : State := { s with enc := Encoder.reset }

/-- A machine that no RESET has reached yet: `PHASE` has no value (R223). The spec gives the other registers no value there
either; they hold whatever `e` holds, which nothing constrains (DESIGN CHOICE, log entry 17), and the environment is as
`Env.initial` has it (log entry 3). -/
def State.powerOn (e : Encoder) : State := { State.reset with enc := { e with phase := .noValue } }

end Sys2Proof.Machine
end

