-- ==== Sys2Proof/Machine/Builders.lean ====
section
/-!
DEFINITION. The meanings of the five builder commands (spec 41_frame_builders.md): each fixes `(fin, opc, pfx, n)` and
hands them to `EmitFrame` (R150).
-/

namespace Sys2Proof.Machine

/-- TEXT (R151): a final text frame. -/
def execText (masked : Bool) (len : Word) (s : State) : Host.Outcome State Fault Refusal :=
  accept (emitFrame Config.maxlen true 1 masked [] len.toNat) s

/-- BINARY (R152): opcode BINARY for a first frame, CONTINUATION for any other. -/
def execBinary (masked fin first : Bool) (len : Word) (s : State) : Host.Outcome State Fault Refusal :=
  accept (emitFrame Config.maxlen fin (if first then 2 else 0) masked [] len.toNat) s

/-- CLOSE (R153 to R155): no code, or code 1005, gives an empty payload and `LEN` is not read; a code that two bytes cannot
hold is refused; any other code stands big-endian before the reason bytes. -/
def execClose (masked : Bool) (code : Option (BitVec 32)) (len : Word) (s : State) :
    Host.Outcome State Fault Refusal :=
  match code with
  | none => accept (emitFrame Config.maxlen true 8 masked [] 0) s
  | some code =>
    if representableCode code then
      if code.toNat = 1005 then accept (emitFrame Config.maxlen true 8 masked [] 0) s
      else accept (emitFrame Config.maxlen true 8 masked (closeBytes code) len.toNat) s
    else accept (.error .badCloseCode) s

/-- PING (R156): a ping frame with no payload. -/
def execPing (masked : Bool) (s : State) : Host.Outcome State Fault Refusal :=
  accept (emitFrame Config.maxlen true 9 masked [] 0) s

/-- PONG (R157): a pong frame with a payload. -/
def execPong (masked : Bool) (len : Word) (s : State) : Host.Outcome State Fault Refusal :=
  accept (emitFrame Config.maxlen true 10 masked [] len.toNat) s

end Sys2Proof.Machine
end

