-- ==== Sys2Proof/Machine/Synth.lean ====
section
/-!
DEFINITION. The meaning of SYNTH (spec 40_header_synthesis.md R143). A command's meaning is its ACCEPT step; the bytes it
emits follow, one step each, from the registers ACCEPT writes (Serial.lean; R171, R178). The test of the reserved
descriptor bits, the first line of every command's pseudocode, is the decoder's (Decode.lean, R88).
-/

namespace Sys2Proof.Machine

/-- SYNTH (R143): explicit fin, opcode, masked flag and payload; a reserved opcode is refused (R98, R193). -/
def execSynth (fin masked : Bool) (opc : BitVec 4) (len : Word) (s : State) : Host.Outcome State Fault Refusal :=
  if validOpcode opc then accept (emitFrame Config.maxlen fin opc masked [] len.toNat) s
  else accept (.error .badOpcode) s

end Sys2Proof.Machine
end

