-- ==== Sys2Proof/Machine/Dispatch.lean ====
section
/-!
DEFINITION. Which meaning each command has, one arm a constructor.
-/

namespace Sys2Proof.Machine

def exec (i : Instr) (s : State) : Host.Outcome State Fault Refusal :=
  match i with
  | .synth fin masked opc len => Sys2Proof.Machine.execSynth fin masked opc len s
  | .text masked len => Sys2Proof.Machine.execText masked len s
  | .binary masked fin first len => Sys2Proof.Machine.execBinary masked fin first len s
  | .close masked code len => Sys2Proof.Machine.execClose masked code len s
  | .ping masked => Sys2Proof.Machine.execPing masked s
  | .pong masked len => Sys2Proof.Machine.execPong masked len s

end Sys2Proof.Machine
end

