-- ==== Sys2Proof/Machine/Fetch.lean ====
section
/-!
DEFINITION. What the next ACCEPT takes from `CMD`, and how a command is put there (spec 20_memory.md R51, R69).
-/

namespace Sys2Proof.Machine

/-- The command the descriptor presented on `CMD` selects, read whole (R69, R88): `none` where nothing is presented. -/
def State.presented (s : State) : Option (Except DecodeError Instr) :=
  match s.env.cmd with
  | [] => none
  | c :: _ => some (decode c.cw0 c.cw1)

/-- `s` with the descriptor `(cw0, cw1)` presented first and nothing in its way: the encoder idle with no key held, reset
released, no move of the environment outstanding and, where the descriptor asks for masking and no key draw is ready, one
ready draw (of zeros: any draw is admitted, R130). Log entry 5. -/
def State.withCommand (s : State) (cw0 cw1 : Word) : State :=
  { s with
      enc := { s.enc with phase := .idle, k := none },
      env := { s.env with
        cmd := { cw0 := cw0, cw1 := cw1, src := [] } :: s.env.cmd,
        keys := if maskedOf cw0 && s.env.keys.isEmpty then [⟨0, 0, 0, 0⟩] else s.env.keys,
        resetLine := false, inputs := [] } }

end Sys2Proof.Machine
end

