-- ==== Sys2Proof/Machine/Serial.lean ====
section
/-!
DEFINITION. The two emitting steps (spec 42_serial_sequencing.md R173 to R176). Each puts one byte on `FOUT`.
-/

namespace Sys2Proof.Machine

/-- EMIT_HDR's register changes after its byte is out (R173). -/
def Encoder.afterHdr (e : Encoder) : Encoder :=
  if e.hidx.toNat + 1 < e.hlen.toNat then { e with hidx := e.hidx + 1 }
  else if 0 < e.qPl.toNat then { e with phase := .pay }
  else e.complete

/-- EMIT_HDR (R173). It waits for the sink (R177). -/
def emitHdr (s : State) : Host.Outcome State Fault Refusal :=
  if s.env.sinkReady then
    match s.enc.hbufAt s.enc.hidx.toNat with
    | none => .fault (.noValue .hbuf)
    | some b => .next { s.emit s.enc.hidx.toNat b with enc := s.enc.afterHdr }
  else .next s

/-- EMIT_PAY's register changes after its byte is out (R174). -/
def Encoder.afterPay (e : Encoder) : Encoder :=
  if e.pidx.toNat + 1 < e.qPl.toNat then { e with pidx := e.pidx + 1 } else e.complete

/-- Where an effective-payload byte comes from (R175). -/
inductive PayByte where
  /-- The byte. -/
  | byte (b : Byte)
  /-- The payload source cannot answer yet (R177). -/
  | wait
  /-- A `Q_PFX` byte that does not exist. -/
  | noValue
  deriving DecidableEq, Repr

/-- `PB(i)` (R175): `Q_PFX[i]` if `i < Q_PFXN`, else `SrcRead(i - Q_PFXN)`. -/
def State.payByte (s : State) (i : Nat) : PayByte :=
  if i < s.enc.qPfxn.toNat then
    match s.enc.qPfxAt i with
    | some b => .byte b
    | none => .noValue
  else
    match srcRead s.env (i - s.enc.qPfxn.toNat) with
    | some b => .byte b
    | none => .wait

/-- The byte as it goes out (R174): XORed with `K[PIDX mod 4]` where the request is masked. `none` where `K` holds no value. -/
def Encoder.maskByte (e : Encoder) (b : Byte) : Option Byte :=
  if e.qMask then
    match e.k with
    | some key => some (b ^^^ key.byte e.pidx.toNat)
    | none => none
  else some b

/-- EMIT_PAY (R174). It waits for the sink and for the payload source (R177). -/
def emitPay (s : State) : Host.Outcome State Fault Refusal :=
  if s.env.sinkReady then
    match s.payByte s.enc.pidx.toNat with
    | .wait => .next s
    | .noValue => .fault (.noValue .qPfx)
    | .byte b =>
      match s.enc.maskByte b with
      | none => .fault (.noValue .k)
      | some m => .next { s.emit (s.enc.hlen.toNat + s.enc.pidx.toNat) m with enc := s.enc.afterPay }
  else .next s

end Sys2Proof.Machine
end

