-- ==== Sys2Proof/Machine/Step.lean ====
section
/-!
DEFINITION. One step of the machine (spec 42_serial_sequencing.md R170): the environment's moves for this moment, then RESET
where its signal is asserted (it outranks every other step, R197, R220), else the one step `PHASE` enables.
-/

namespace Sys2Proof.Machine

/-- The step in `PHASE = IDLE`: ACCEPT of the presented descriptor, or nothing (R171, R172, R181). A descriptor that selects
no command is refused with its cause (R191, R192). -/
def stepIdle (s : State) : Host.Outcome State Fault Refusal :=
  match s.presented with
  | none => .next s
  | some (.ok i) => exec i s
  | some (.error e) => accept (.error (decodeCause e)) s

/-- The encoder's own step, by `PHASE` (R170). -/
def stepPhase (s : State) : Host.Outcome State Fault Refusal :=
  match s.enc.phase with
  | .noValue => .fault .beforeFirstReset
  | .idle => stepIdle s
  | .hdr => emitHdr s
  | .pay => emitPay s

/-- The step once the environment has moved. -/
def stepNow (s : State) : Host.Outcome State Fault Refusal :=
  if s.env.resetLine then .next s.resetStep else stepPhase s

/-- One step. -/
def step (s : State) : Host.Outcome State Fault Refusal := stepNow s.takeInputs

/-- `s` with a table word's descriptor presented so that the very next step accepts it (log entry 5). -/
def State.withFetchWord (s : State) (nbits w : Nat) : State :=
  s.withCommand (tableCw0 nbits w) (tableCw1 nbits w)

end Sys2Proof.Machine
end

