-- ==== Sys2Proof/WellFormed.lean ====
section
/-!
DEFINITION. The operand domain on which header synthesis is total (spec 40_header_synthesis.md R120): a defined wire
opcode, and a close code that two bytes can hold. Every term of `Instr` can be presented to the encoder, an ill-formed one
too: the encoder then refuses it with an error result (60_exceptions.md R193, R194). The length bound `MAXLEN` is a
property of the instance, not of the command, and is tested when the command is accepted (R195).
-/

namespace Sys2Proof

/-- The value checks of the command set that do not depend on the instance. -/
def Instr.WellFormed : Instr → Bool
  | .synth _ _ opc _ => validOpcode opc
  | .close _ (some code) _ => representableCode code
  | .close _ none _ => true
  | .text _ _ => true
  | .binary _ _ _ _ => true
  | .ping _ => true
  | .pong _ _ => true

end Sys2Proof
end

