-- ==== Sys2Proof/Safety.lean ====
section
/-!
DEFINITION. The terms claims are stated in: the invariant of a run (spec 10_state.md R33), what ACCEPT, an error, an emitting
step and RESET do to a state written out register by register (R171 to R174, R198, R220), which registers hold a value (R31).
-/

namespace Sys2Proof.Machine

/-! ### The invariant (R22, R24, R25, R26, R33) -/

/-- The six header lengths (R96, R129). -/
def legalHLen (n : Nat) : Prop := n = 2 ∨ n = 4 ∨ n = 6 ∨ n = 8 ∨ n = 10 ∨ n = 14

/-- The legal contents of `RES` (R26, R196): after reset or an acceptance, or after an error. -/
def LegalRes (e : Encoder) : Prop :=
  (e.status = .ok ∧ e.detail = .none ∧
    ((e.rHlen = 0 ∧ e.rFlen = 0) ∨
     (legalHLen e.rHlen.toNat ∧ e.rHlen.toNat ≤ e.rFlen.toNat ∧ e.rFlen.toNat ≤ 14 + Config.maxlen))) ∨
  (∃ c : Cause, e.status = c.status ∧ e.detail = c.detail ∧ e.rHlen = 0 ∧ e.rFlen = 0)

/-- What holds of the registers while a frame is in flight (R22, R24, R33). -/
structure FrameInFlight (e : Encoder) : Prop where
  key     : e.kv = e.qMask
  status  : e.status = .ok
  rHlen   : e.rHlen = e.hlen
  rFlen   : e.rFlen.toNat = e.hlen.toNat + e.qPl.toNat
  hlen    : legalHLen e.hlen.toNat
  hbuf    : e.hbuf = header e.qFin e.qOpc e.k e.qPl.toNat
  hbufLen : e.hbuf.length = e.hlen.toNat
  opc     : validOpcode e.qOpc = true
  pl      : e.qPl.toNat ≤ Config.maxlen
  pfxn    : e.qPfxn.toNat = 0 ∨ e.qPfxn.toNat = 2
  pfxnLe  : e.qPfxn.toNat ≤ e.qPl.toNat

/-- The invariant of every state a run from reset reaches (R33). -/
structure Inv (s : State) : Prop where
  phase  : s.enc.phase ≠ .noValue
  idle   : s.enc.phase = .idle → s.enc.kv = false
  flight : s.enc.phase = .hdr ∨ s.enc.phase = .pay → FrameInFlight s.enc
  hdr    : s.enc.phase = .hdr → s.enc.hidx.toNat < s.enc.hlen.toNat ∧ s.enc.pidx = 0
  pay    : s.enc.phase = .pay → s.enc.pidx.toNat < s.enc.qPl.toNat
  res    : LegalRes s.enc
  pin    : Memory.wf s.env.pin = true

/-! ### What the steps do, register by register -/

/-- A key draw as ACCEPT makes it (R53, R130): none for an unmasked request; for a masked one the next draw of the key
source, which is then consumed. -/
def Draws (mask : Bool) (keys : List Key) (key : Option Key) (keys' : List Key) : Prop :=
  (mask = false ∧ key = none ∧ keys' = keys) ∨ (mask = true ∧ ∃ k, key = some k ∧ keys = k :: keys')

/-- All that R171 says ACCEPT does when request `r` is accepted from `s`: every register of the state `t` after it, and every
port but `PIN`, which the rule leaves to the payload source. -/
structure Started (r : Request) (key : Option Key) (rest : List Command) (keys : List Key) (s t : State) : Prop where
  qFin   : t.enc.qFin = r.fin
  qOpc   : t.enc.qOpc = r.opc
  qMask  : t.enc.qMask = r.mask
  qPl    : t.enc.qPl.toNat = r.pfx.length + r.n
  qPfxn  : t.enc.qPfxn.toNat = r.pfx.length
  qPfx   : ∀ b0 b1, r.pfx = [b0, b1] → t.enc.qPfx0 = b0 ∧ t.enc.qPfx1 = b1
  qPfxOld : r.pfx = [] → t.enc.qPfx0 = s.enc.qPfx0 ∧ t.enc.qPfx1 = s.enc.qPfx1
  k      : t.enc.k = key
  kv     : t.enc.kv = r.mask
  hlen   : t.enc.hlen.toNat = hLen r.mask (r.pfx.length + r.n)
  hbuf   : t.enc.hbuf = header r.fin r.opc key (r.pfx.length + r.n)
  hidx   : t.enc.hidx = 0
  pidx   : t.enc.pidx = 0
  status : t.enc.status = .ok
  detail : t.enc.detail = .none
  rHlen  : t.enc.rHlen.toNat = hLen r.mask (r.pfx.length + r.n)
  rFlen  : t.enc.rFlen.toNat = hLen r.mask (r.pfx.length + r.n) + (r.pfx.length + r.n)
  phase  : t.enc.phase = .hdr
  cmd    : t.env.cmd = rest
  keys   : t.env.keys = keys
  fout   : t.env.fout = s.env.fout
  sink   : t.env.sinkReady = s.env.sinkReady
  line   : t.env.resetLine = s.env.resetLine
  inputs : t.env.inputs = s.env.inputs

/-- Everything ACCEPT does, `PIN` with it: from here on `PIN` is command `c`'s own source bytes (R52; the moment is the
model's, log entry 7). -/
structure Accepted (r : Request) (key : Option Key) (c : Command) (rest : List Command) (keys : List Key)
    (s t : State) : Prop extends Started r key rest keys s t where
  pin    : ∀ i, srcRead t.env i = c.src[i]?
  pinWf  : Memory.wf t.env.pin = true

/-- Everything an error does (R172, R198, R199): `RES` is written and the descriptor consumed; every other register, the key
source, `PIN`, `FOUT` and the rest of the environment are as before. -/
def Refused (cause : Cause) (rest : List Command) (s t : State) : Prop :=
  t.enc = { s.enc with status := cause.status, detail := cause.detail, rHlen := 0, rFlen := 0 } ∧
  t.env = { s.env with cmd := rest }

/-- Everything EMIT_HDR does with header byte `b` (R173). -/
def HdrEmitted (b : Byte) (s t : State) : Prop :=
  t.env = { s.env with fout := s.env.fout ++ [(s.enc.hidx.toNat, b)] } ∧
  (s.enc.hidx.toNat + 1 < s.enc.hlen.toNat → t.enc = { s.enc with hidx := s.enc.hidx + 1 }) ∧
  (s.enc.hlen.toNat ≤ s.enc.hidx.toNat + 1 → 0 < s.enc.qPl.toNat → t.enc = { s.enc with phase := .pay }) ∧
  (s.enc.hlen.toNat ≤ s.enc.hidx.toNat + 1 → s.enc.qPl.toNat = 0 → t.enc = { s.enc with phase := .idle, k := none })

/-- Everything EMIT_PAY does with outgoing byte `m` (R174). -/
def PayEmitted (m : Byte) (s t : State) : Prop :=
  t.env = { s.env with fout := s.env.fout ++ [(s.enc.hlen.toNat + s.enc.pidx.toNat, m)] } ∧
  (s.enc.pidx.toNat + 1 < s.enc.qPl.toNat → t.enc = { s.enc with pidx := s.enc.pidx + 1 }) ∧
  (s.enc.qPl.toNat ≤ s.enc.pidx.toNat + 1 → t.enc = { s.enc with phase := .idle, k := none })

/-- The step is held (R177, R180, R181): why the encoder waits in the state `u` the environment has left it in. -/
def Held (u : State) : Prop :=
  u.env.resetLine = false ∧
  ((u.enc.phase = .idle ∧ u.env.cmd = []) ∨
   (u.enc.phase = .idle ∧ u.env.keys = [] ∧
      ∃ c rest r, u.env.cmd = c :: rest ∧ resolve Config.maxlen c.cw0 c.cw1 = .ok r ∧ r.mask = true) ∨
   (u.enc.phase = .hdr ∧ u.env.sinkReady = false) ∨
   (u.enc.phase = .pay ∧ u.env.sinkReady = false) ∨
   (u.enc.phase = .pay ∧ u.enc.qPfxn.toNat ≤ u.enc.pidx.toNat ∧
      srcRead u.env (u.enc.pidx.toNat - u.enc.qPfxn.toNat) = none))

/-- The ways the encoder's state changes (R170, R181), from the moment the environment has moved. -/
inductive StepsTo (u t : State) : Prop where
  /-- RESET. -/
  | reset (line : u.env.resetLine = true) (effect : t = { u with enc := Encoder.reset })
  /-- ACCEPT, success: the request is what `Resolve` makes of the presented descriptor. -/
  | accept (line : u.env.resetLine = false) (phase : u.enc.phase = .idle) (c : Command) (rest : List Command)
      (cmd : u.env.cmd = c :: rest) (r : Request) (resolved : resolve Config.maxlen c.cw0 c.cw1 = .ok r)
      (key : Option Key) (keys : List Key) (draw : Draws r.mask u.env.keys key keys)
      (effect : Accepted r key c rest keys u t)
  /-- ACCEPT, error. -/
  | refuse (line : u.env.resetLine = false) (phase : u.enc.phase = .idle) (c : Command) (rest : List Command)
      (cmd : u.env.cmd = c :: rest) (cause : Cause) (resolved : resolve Config.maxlen c.cw0 c.cw1 = .error cause)
      (effect : Refused cause rest u t)
  /-- EMIT_HDR. -/
  | emitHdr (line : u.env.resetLine = false) (phase : u.enc.phase = .hdr) (sink : u.env.sinkReady = true) (b : Byte)
      (value : u.enc.hbufAt u.enc.hidx.toNat = some b) (effect : HdrEmitted b u t)
  /-- EMIT_PAY. -/
  | emitPay (line : u.env.resetLine = false) (phase : u.enc.phase = .pay) (sink : u.env.sinkReady = true) (b m : Byte)
      (value : u.payByte u.enc.pidx.toNat = .byte b) (masked : u.enc.maskByte b = some m) (effect : PayEmitted m u t)
  /-- A hold: nothing changes (R177). -/
  | held (why : Held u) (effect : t = u)

/-! ### Which registers hold a value (R31, U9) -/

/-- The two encoders agree on every register that holds a value: `PHASE`, `K` with `KV`, `RES` always; the request, header
and index registers while a frame is in flight, `HBUF` up to `HLEN` and `Q_PFX` up to `Q_PFXN`. -/
structure SameValues (e f : Encoder) : Prop where
  phase  : e.phase = f.phase
  k      : e.k = f.k
  status : e.status = f.status
  detail : e.detail = f.detail
  rHlen  : e.rHlen = f.rHlen
  rFlen  : e.rFlen = f.rFlen
  flight : e.phase = .hdr ∨ e.phase = .pay →
    e.hidx = f.hidx ∧ e.pidx = f.pidx ∧ e.qFin = f.qFin ∧ e.qOpc = f.qOpc ∧ e.qMask = f.qMask ∧ e.qPl = f.qPl ∧
    e.qPfxn = f.qPfxn ∧ (∀ j, j < e.qPfxn.toNat → e.qPfxAt j = f.qPfxAt j) ∧
    e.hlen = f.hlen ∧ (∀ j, e.hbufAt j = f.hbufAt j)

/-- Two outcomes a reader of the registers that hold a value, and of the ports, cannot tell apart. -/
def SameOutcome : Host.Outcome State Fault Refusal → Host.Outcome State Fault Refusal → Prop
  | .next s, .next t => SameValues s.enc t.enc ∧ s.env = t.env
  | .fault a, .fault b => a = b
  | .refused a, .refused b => a = b
  | _, _ => False

/-! ### The bytes of a frame -/

/-- The key as the bytes from payload index `r` on see it, `rot(key, r)[j] = key[(j + r) mod 4]` (R137). -/
def Key.rot (key : Key) (r : Nat) : Key := ⟨key.byte r, key.byte (r + 1), key.byte (r + 2), key.byte (r + 3)⟩

/-- The `KIND` of a command (R84). -/
def kindNumber : Instr → Nat
  | .synth _ _ _ _ => 0
  | .text _ _ => 1
  | .binary _ _ _ _ => 2
  | .close _ _ _ => 3
  | .ping _ => 4
  | .pong _ _ => 5

/-- The index in its frame of the byte the next emitting step puts out (R25). -/
def framePos (e : Encoder) : Nat :=
  match e.phase with
  | .pay => e.hlen.toNat + e.pidx.toNat
  | _ => e.hidx.toNat

/-- A frame's bytes as the sink takes them, each with its index (R54), from index `j` on. -/
def cellsFrom : Nat → List Byte → List Host.Cell
  | _, [] => []
  | j, b :: bs => (j, b) :: cellsFrom (j + 1) bs

/-- The environment lifts every hold and makes no further move (R178): the sink is ready, reset released. -/
def Undisturbed (v : Env) : Prop := v.sinkReady = true ∧ v.resetLine = false ∧ v.inputs = []

end Sys2Proof.Machine
end

