-- ==== Sys2Proof/Certificates/Slice0/Obligations.lean ====
section
/-!
DEFINITION. The statements for the provers. In each, `s.takeInputs` is the state once the environment has made the moves it
has for this moment (log entry 4); a step acts on that state. A statement about a port or a register says it of every state
unless a hypothesis restricts it.
-/

section
open Sys2Proof Sys2Proof.Machine

/-! ### Descriptors -/

/-- R80, R81, R84, R100: every command, with every operand at every value, is read back from its descriptor. -/
def Obligations.DecodeOfEncode : Prop :=
  ∀ i : Instr, decode (encode i).1 (encode i).2 = .ok i

/-- R81, R84: descriptors written out in 95_test_vectors.md (sections 2.1, 2.4, 2.7) select the commands they stand for. -/
def Obligations.DecodeWrittenWords : Prop :=
  decode 0x0000000000000918 4 = .ok (.synth true true 9 4) ∧
  decode 0x0000000000000009 5 = .ok (.text true 5) ∧
  decode 0x000000000000002A 5 = .ok (.binary true false true 5) ∧
  decode 0x000003E80000004B 3 = .ok (.close true (some 1000) 3) ∧
  decode 0x0001117000000003 0 = .ok (.close false none 0) ∧
  decode 0x000000000000000C 0 = .ok (.ping true) ∧
  decode 0x0000000000000005 2 = .ok (.pong false 2) ∧
  decode 0x0000000000000006 0 = .error .badKind ∧
  decode 0x0000000000000087 0 = .error .rsvdBits

/-- R88 with the fields of R81: which of the three outcomes each pair of words has, and the command with its fields; and the
table's `mask` and `match`: a descriptor selects the row of `KIND = k` exactly if `CW0 & mask = k`, and one that selects no
row is refused. -/
def Obligations.DecodeTotal : Prop :=
  ∀ cw0 cw1 : Word,
    (cw0 &&& 0xFFFFF080#64 ≠ 0 → decode cw0 cw1 = .error .rsvdBits) ∧
    (cw0 &&& 0xFFFFF080#64 = 0 →
      (6 ≤ (cw0.extractLsb' 0 3).toNat → decode cw0 cw1 = .error .badKind) ∧
      (cw0.extractLsb' 0 3 = 0 →
        decode cw0 cw1 = .ok (.synth (cw0.getLsbD 4) (cw0.getLsbD 3) (cw0.extractLsb' 8 4) cw1)) ∧
      (cw0.extractLsb' 0 3 = 1 → decode cw0 cw1 = .ok (.text (cw0.getLsbD 3) cw1)) ∧
      (cw0.extractLsb' 0 3 = 2 →
        decode cw0 cw1 = .ok (.binary (cw0.getLsbD 3) (cw0.getLsbD 4) (cw0.getLsbD 5) cw1)) ∧
      (cw0.extractLsb' 0 3 = 3 →
        (cw0.getLsbD 6 = true → decode cw0 cw1 = .ok (.close (cw0.getLsbD 3) (some (cw0.extractLsb' 32 32)) cw1)) ∧
        (cw0.getLsbD 6 = false → decode cw0 cw1 = .ok (.close (cw0.getLsbD 3) none cw1))) ∧
      (cw0.extractLsb' 0 3 = 4 → decode cw0 cw1 = .ok (.ping (cw0.getLsbD 3))) ∧
      (cw0.extractLsb' 0 3 = 5 → decode cw0 cw1 = .ok (.pong (cw0.getLsbD 3) cw1))) ∧
    (∀ k : Nat, k < 6 →
      (cw0 &&& 0x00000000FFFFF087#64 = BitVec.ofNat 64 k ↔ ∃ i, decode cw0 cw1 = .ok i ∧ kindNumber i = k)) ∧
    ((∀ k : Nat, k < 6 → cw0 &&& 0x00000000FFFFF087#64 ≠ BitVec.ofNat 64 k) → ∃ e, decode cw0 cw1 = .error e)

/-- R85: two descriptors of one `KIND` that agree on the reserved bits' being 0 and on the fields the command reads resolve
alike, whatever stands in the fields it ignores. -/
def Obligations.IgnoredFieldsHaveNoEffect : Prop :=
  ∀ (m : Nat) (a0 a1 b0 b1 : Word),
    rsvdSet a0 = false → rsvdSet b0 = false → kindOf a0 = kindOf b0 → maskedOf a0 = maskedOf b0 →
    (kindOf a0 = 0 → finOf a0 = finOf b0 ∧ opcOf a0 = opcOf b0 ∧ a1 = b1) →
    (kindOf a0 = 1 → a1 = b1) →
    (kindOf a0 = 2 → finOf a0 = finOf b0 ∧ firstOf a0 = firstOf b0 ∧ a1 = b1) →
    (kindOf a0 = 3 → codevOf a0 = codevOf b0 ∧
      (codevOf a0 = true → codeOf a0 = codeOf b0 ∧ ((codeOf a0).toNat ≠ 1005 → a1 = b1))) →
    (kindOf a0 = 5 → a1 = b1) →
    resolve m a0 a1 = resolve m b0 b1 ∧ ∀ (src : List Byte) (key : Key), frame m a0 a1 src key = frame m b0 b1 src key

/-! ### A step runs the presented command -/

/-- A step in `IDLE` with reset released runs the command the presented descriptor decodes to, on the state the environment
has left. -/
def Obligations.StepRunsDecoded : Prop :=
  ∀ (s : State) (c : Command) (rest : List Command) (i : Instr),
    s.takeInputs.env.resetLine = false → s.takeInputs.enc.phase = .idle → s.takeInputs.env.cmd = c :: rest →
    decode c.cw0 c.cw1 = .ok i → step s = exec i s.takeInputs

/-- R159 against R143, R151 to R153, R156, R157: the commands' own meanings agree with `Resolve` of their descriptors. -/
def Obligations.ExecAgreesWithResolve : Prop :=
  ∀ (i : Instr) (s : State), exec i s = accept (resolve Config.maxlen (encode i).1 (encode i).2) s

/-- R171 with R142: ACCEPT, success, register by register and port by port (but `PIN`), from every state it is enabled in. -/
def Obligations.StepAcceptsRequest : Prop :=
  ∀ (s : State) (c : Command) (rest : List Command) (r : Request) (key : Option Key) (keys : List Key),
    s.takeInputs.env.resetLine = false → s.takeInputs.enc.phase = .idle → s.takeInputs.env.cmd = c :: rest →
    resolve Config.maxlen c.cw0 c.cw1 = .ok r → Draws r.mask s.takeInputs.env.keys key keys →
    ∃ t, step s = .next t ∧ Started r key rest keys s.takeInputs t

/-- R172, R198, R199: ACCEPT, error: `RES` is written and the descriptor consumed, nothing else changes; no key, no source
byte and no sink is needed. -/
def Obligations.StepRefusesCommand : Prop :=
  ∀ (s : State) (c : Command) (rest : List Command) (cause : Cause),
    s.takeInputs.env.resetLine = false → s.takeInputs.enc.phase = .idle → s.takeInputs.env.cmd = c :: rest →
    resolve Config.maxlen c.cw0 c.cw1 = .error cause →
    ∃ t, step s = .next t ∧ Refused cause rest s.takeInputs t

/-! ### Every command completes: its ACCEPT, whole -/

/-- R143 with R171: SYNTH with a defined opcode and a length within `MAXLEN` is accepted. -/
def Obligations.SynthAccepted : Prop :=
  ∀ (s : State) (fin masked : Bool) (opc : BitVec 4) (len : Word) (c : Command) (rest : List Command)
    (key : Option Key) (keys : List Key),
    s.enc.phase = .idle → s.env.cmd = c :: rest → Draws masked s.env.keys key keys →
    (opc = 0 ∨ opc = 1 ∨ opc = 2 ∨ opc = 8 ∨ opc = 9 ∨ opc = 10) → len.toNat ≤ Config.maxlen →
    ∃ t, exec (.synth fin masked opc len) s = .next t ∧
      Accepted ⟨fin, opc, masked, [], len.toNat⟩ key c rest keys s t

/-- R151 with R171: TEXT within `MAXLEN` is accepted as a final text frame. -/
def Obligations.TextAccepted : Prop :=
  ∀ (s : State) (masked : Bool) (len : Word) (c : Command) (rest : List Command) (key : Option Key) (keys : List Key),
    s.enc.phase = .idle → s.env.cmd = c :: rest → Draws masked s.env.keys key keys → len.toNat ≤ Config.maxlen →
    ∃ t, exec (.text masked len) s = .next t ∧ Accepted ⟨true, 1, masked, [], len.toNat⟩ key c rest keys s t

/-- R152 with R171: BINARY within `MAXLEN` is accepted, opcode 2 for a first frame and 0 for any other. -/
def Obligations.BinaryAccepted : Prop :=
  ∀ (s : State) (masked fin first : Bool) (len : Word) (c : Command) (rest : List Command)
    (key : Option Key) (keys : List Key),
    s.enc.phase = .idle → s.env.cmd = c :: rest → Draws masked s.env.keys key keys → len.toNat ≤ Config.maxlen →
    ∃ t, exec (.binary masked fin first len) s = .next t ∧
      Accepted ⟨fin, if first then 2 else 0, masked, [], len.toNat⟩ key c rest keys s t

/-- R153, R154 with R171: CLOSE with a code other than 1005 that two bytes can hold, and a payload within `MAXLEN`, is
accepted with the code's high and low byte before the reason; no such code is refused (R155 a). -/
def Obligations.CloseWithCodeAccepted : Prop :=
  ∀ (s : State) (masked : Bool) (code : BitVec 32) (len : Word) (c : Command) (rest : List Command)
    (key : Option Key) (keys : List Key),
    s.enc.phase = .idle → s.env.cmd = c :: rest → Draws masked s.env.keys key keys →
    code.toNat ≤ 65535 → code.toNat ≠ 1005 → 2 + len.toNat ≤ Config.maxlen →
    ∃ t, exec (.close masked (some code) len) s = .next t ∧
      Accepted ⟨true, 8, masked, [code.extractLsb' 8 8, code.extractLsb' 0 8], len.toNat⟩ key c rest keys s t

/-- R153, R155 with R171: CLOSE with no code, or with code 1005, is accepted with an empty payload whatever `LEN` says. -/
def Obligations.CloseEmptyAccepted : Prop :=
  ∀ (s : State) (masked : Bool) (code : Option (BitVec 32)) (len : Word) (c : Command) (rest : List Command)
    (key : Option Key) (keys : List Key),
    s.enc.phase = .idle → s.env.cmd = c :: rest → Draws masked s.env.keys key keys →
    (code = none ∨ code = some 1005) →
    ∃ t, exec (.close masked code len) s = .next t ∧ Accepted ⟨true, 8, masked, [], 0⟩ key c rest keys s t

/-- R156 with R171: PING is accepted with an empty payload. -/
def Obligations.PingAccepted : Prop :=
  ∀ (s : State) (masked : Bool) (c : Command) (rest : List Command) (key : Option Key) (keys : List Key),
    s.enc.phase = .idle → s.env.cmd = c :: rest → Draws masked s.env.keys key keys →
    ∃ t, exec (.ping masked) s = .next t ∧ Accepted ⟨true, 9, masked, [], 0⟩ key c rest keys s t

/-- R157 with R171: PONG within `MAXLEN` is accepted with its payload. -/
def Obligations.PongAccepted : Prop :=
  ∀ (s : State) (masked : Bool) (len : Word) (c : Command) (rest : List Command) (key : Option Key) (keys : List Key),
    s.enc.phase = .idle → s.env.cmd = c :: rest → Draws masked s.env.keys key keys → len.toNat ≤ Config.maxlen →
    ∃ t, exec (.pong masked len) s = .next t ∧ Accepted ⟨true, 10, masked, [], len.toNat⟩ key c rest keys s t

/-! ### Every command's error results -/

/-- R193: SYNTH with a reserved wire opcode is refused as `BAD_OPCODE`, whatever its length and whether or not a key is
ready. -/
def Obligations.ReservedOpcodeRefused : Prop :=
  ∀ (s : State) (fin masked : Bool) (opc : BitVec 4) (len : Word) (c : Command) (rest : List Command),
    s.enc.phase = .idle → s.env.cmd = c :: rest →
    opc.toNat ∈ [3, 4, 5, 6, 7, 11, 12, 13, 14, 15] →
    ∃ t, exec (.synth fin masked opc len) s = .next t ∧ Refused .badOpcode rest s t

/-- R194: CLOSE with a code above 65535 is refused as `BAD_CLOSE_CODE`; it is not wrapped and the frame is not sent without
a code. -/
def Obligations.UnrepresentableCloseCodeRefused : Prop :=
  ∀ (s : State) (masked : Bool) (code : BitVec 32) (len : Word) (c : Command) (rest : List Command),
    s.enc.phase = .idle → s.env.cmd = c :: rest → 65535 < code.toNat →
    ∃ t, exec (.close masked (some code) len) s = .next t ∧ Refused .badCloseCode rest s t

/-- R195: a payload above `MAXLEN` is refused as `TOO_LONG` by every command that reads `LEN`; the sum `2 + LEN` of CLOSE
does not wrap. -/
def Obligations.OversizedPayloadRefused : Prop :=
  ∀ (s : State) (masked fin first : Bool) (opc : BitVec 4) (code : BitVec 32) (len : Word) (c : Command)
    (rest : List Command),
    s.enc.phase = .idle → s.env.cmd = c :: rest →
    (Config.maxlen < len.toNat →
      (validOpcode opc = true → ∃ t, exec (.synth fin masked opc len) s = .next t ∧ Refused .tooLong rest s t) ∧
      (∃ t, exec (.text masked len) s = .next t ∧ Refused .tooLong rest s t) ∧
      (∃ t, exec (.binary masked fin first len) s = .next t ∧ Refused .tooLong rest s t) ∧
      (∃ t, exec (.pong masked len) s = .next t ∧ Refused .tooLong rest s t)) ∧
    (Config.maxlen < 2 + len.toNat → code.toNat ≤ 65535 → code.toNat ≠ 1005 →
      ∃ t, exec (.close masked (some code) len) s = .next t ∧ Refused .tooLong rest s t)

/-- R197 with R191 to R195: for every admissible `MAXLEN`, which cause a descriptor is refused with, the first of the five
it meets; and RESET outranks everything: a descriptor presented together with it still waits. -/
def Obligations.ErrorPriority : Prop :=
  ∀ (m : Nat) (cw0 cw1 : Word), 2 ^ 32 - 1 ≤ m → m ≤ 2 ^ 63 - 1 →
    let rsvd := cw0 &&& 0xFFFFF080#64 ≠ 0
    let badKind := (kindOf cw0).toNat = 6 ∨ (kindOf cw0).toNat = 7
    let badOpcode := kindOf cw0 = 0 ∧ (opcOf cw0).toNat ∈ [3, 4, 5, 6, 7, 11, 12, 13, 14, 15]
    let badCode := kindOf cw0 = 3 ∧ codevOf cw0 = true ∧ 65535 < (codeOf cw0).toNat
    let tooLong :=
      ((kindOf cw0 = 0 ∨ kindOf cw0 = 1 ∨ kindOf cw0 = 2 ∨ kindOf cw0 = 5) ∧ m < cw1.toNat) ∨
      (kindOf cw0 = 3 ∧ codevOf cw0 = true ∧ (codeOf cw0).toNat ≠ 1005 ∧ m < 2 + cw1.toNat)
    (resolve m cw0 cw1 = .error .rsvdBits ↔ rsvd) ∧
    (resolve m cw0 cw1 = .error .badKind ↔ ¬rsvd ∧ badKind) ∧
    (resolve m cw0 cw1 = .error .badOpcode ↔ ¬rsvd ∧ ¬badKind ∧ badOpcode) ∧
    (resolve m cw0 cw1 = .error .badCloseCode ↔ ¬rsvd ∧ ¬badKind ∧ ¬badOpcode ∧ badCode) ∧
    (resolve m cw0 cw1 = .error .tooLong ↔ ¬rsvd ∧ ¬badKind ∧ ¬badOpcode ∧ ¬badCode ∧ tooLong) ∧
    ((∃ r, resolve m cw0 cw1 = .ok r) ↔ ¬rsvd ∧ ¬badKind ∧ ¬badOpcode ∧ ¬badCode ∧ ¬tooLong) ∧
    (∀ s : State, s.takeInputs.env.resetLine = true → ∃ t, step s = .next t ∧ t.env.cmd = s.takeInputs.env.cmd)

/-- R196: the code table. -/
def Obligations.ErrorCodeTable : Prop :=
  (Status.ok.code = 0 ∧ Detail.none.code = 0) ∧
  (Cause.rsvdBits.status.code = 1 ∧ Cause.rsvdBits.detail.code = 1) ∧
  (Cause.badKind.status.code = 1 ∧ Cause.badKind.detail.code = 2) ∧
  (Cause.badOpcode.status.code = 1 ∧ Cause.badOpcode.detail.code = 3) ∧
  (Cause.badCloseCode.status.code = 1 ∧ Cause.badCloseCode.detail.code = 4) ∧
  (Cause.tooLong.status.code = 2 ∧ Cause.tooLong.detail.code = 5)

/-! ### The emitting steps, holds and RESET -/

/-- R173: EMIT_HDR wherever it is enabled: `HBUF[HIDX]` goes out as byte `HIDX`, and the next phase. -/
def Obligations.EmitHdrStep : Prop :=
  ∀ (s : State) (b : Byte),
    s.takeInputs.env.resetLine = false → s.takeInputs.enc.phase = .hdr → s.takeInputs.env.sinkReady = true →
    s.takeInputs.enc.hidx.toNat < s.takeInputs.enc.hlen.toNat →
    s.takeInputs.enc.hbuf[s.takeInputs.enc.hidx.toNat]? = some b →
    ∃ t, step s = .next t ∧ HdrEmitted b s.takeInputs t

/-- R174: EMIT_PAY wherever it is enabled: the payload byte, XORed with `K[PIDX mod 4]` if the request is masked, goes out
as byte `HLEN + PIDX`, and the next phase. -/
def Obligations.EmitPayStep : Prop :=
  ∀ (s : State) (b : Byte),
    s.takeInputs.env.resetLine = false → s.takeInputs.enc.phase = .pay → s.takeInputs.env.sinkReady = true →
    s.takeInputs.payByte s.takeInputs.enc.pidx.toNat = .byte b →
    (s.takeInputs.enc.qMask = false → ∃ t, step s = .next t ∧ PayEmitted b s.takeInputs t) ∧
    (∀ key : Key, s.takeInputs.enc.qMask = true → s.takeInputs.enc.k = some key →
      ∃ t, step s = .next t ∧ PayEmitted (b ^^^ key.byte s.takeInputs.enc.pidx.toNat) s.takeInputs t)

/-- R175: where payload byte `i` comes from, for the two legal values of `Q_PFXN`. -/
def Obligations.PayloadByteSource : Prop :=
  ∀ (s : State) (i : Nat),
    (s.enc.qPfxn = 0 → ∀ b, (s.payByte i = .byte b ↔ srcRead s.env i = some b)) ∧
    (s.enc.qPfxn = 2 →
      s.payByte 0 = .byte s.enc.qPfx0 ∧ s.payByte 1 = .byte s.enc.qPfx1 ∧
      (2 ≤ i → ∀ b, (s.payByte i = .byte b ↔ srcRead s.env (i - 2) = some b)))

/-- R177: each hold: the encoder and its ports stay as the environment has left them. -/
def Obligations.HeldStepChangesNothing : Prop :=
  ∀ s : State, Held s.takeInputs → step s = .next s.takeInputs

/-- R180: a descriptor presented while a frame is in flight is neither taken nor dropped, nor is it an error. -/
def Obligations.BusyDescriptorWaits : Prop :=
  ∀ s t : State, s.takeInputs.env.resetLine = false →
    (s.takeInputs.enc.phase = .hdr ∨ s.takeInputs.enc.phase = .pay) → step s = .next t →
    t.env.cmd = s.takeInputs.env.cmd ∧ t.enc.status = s.takeInputs.enc.status ∧ t.enc.detail = s.takeInputs.enc.detail ∧
    t.enc.rHlen = s.takeInputs.enc.rHlen ∧ t.enc.rFlen = s.takeInputs.enc.rFlen

/-- R220: RESET, enabled in every state and before every other step: the registers the spec gives a value, the ports
untouched, and every register that holds a value then as after reset, whatever the registers were before. -/
def Obligations.ResetStep : Prop :=
  ∀ s : State, s.takeInputs.env.resetLine = true →
    ∃ t, step s = .next t ∧ t.env = s.takeInputs.env ∧ t.enc.phase = .idle ∧ t.enc.kv = false ∧
      t.enc.status = .ok ∧ t.enc.detail = .none ∧ t.enc.rHlen = 0 ∧ t.enc.rFlen = 0 ∧ SameValues t.enc State.reset.enc

/-- R32: what reset leaves, in the registers the spec gives a value. -/
def Obligations.ResetState : Prop :=
  State.reset.enc.phase = .idle ∧ State.reset.enc.kv = false ∧
  State.reset.enc.status = .ok ∧ State.reset.enc.detail = .none ∧
  State.reset.enc.rHlen = 0 ∧ State.reset.enc.rFlen = 0 ∧
  core.reset = State.reset

/-- R223 (a): before the first RESET no step but RESET is defined; RESET is. -/
def Obligations.NothingBeforeFirstReset : Prop :=
  ∀ s : State, s.takeInputs.enc.phase = .noValue →
    (s.takeInputs.env.resetLine = false → step s = .fault .beforeFirstReset) ∧
    (s.takeInputs.env.resetLine = true → ∃ t, step s = .next t ∧ t.enc.phase = .idle)

/-- R181, R170: every step there is, from every state at all: RESET, ACCEPT with or without success, EMIT_HDR, EMIT_PAY, or
a hold with its reason; what the environment does before it writes no register; and outside `PAY` no step reads `PIN`: with
any other contents there it does the same. -/
def Obligations.StepClosure : Prop :=
  (∀ s t : State, step s = .next t → s.takeInputs.enc = s.enc ∧ StepsTo s.takeInputs t) ∧
  (∀ (u t : State) (m : Memory), u.enc.phase ≠ .pay → stepNow u = .next t →
    ∃ t', stepNow { u with env := { u.env with pin := m } } = .next t' ∧ t'.enc = t.enc ∧
      { t'.env with pin := [] } = { t.env with pin := [] })

/-! ### Invariants -/

/-- R33 (with R22, R24, R26): every step keeps the invariant, from every state that meets it, whatever the environment does. -/
def Obligations.InvKeptByStep : Prop :=
  ∀ s t : State, Inv s → step s = .next t → Inv t

/-- R33: the invariant holds at reset. -/
def Obligations.InvAtReset : Prop := Inv State.reset

/-- R33: every state a run from the registers after reset reaches meets the invariant, in every environment: whatever
commands it presents, whatever bytes and keys it supplies, and whenever it stalls or resets the encoder. -/
def Obligations.ReachableStatesMeetInv : Prop :=
  ∀ (v : Env) (n : Nat) (t : State), Memory.wf v.pin = true →
    Host.Core.run core n ⟨State.reset.enc, v⟩ = .next t → Inv t

/-- R31, R190: from a state that meets the invariant no step stops: no register without a value is read and no accepted
command fails. -/
def Obligations.InvNeverStops : Prop :=
  ∀ s : State, Inv s → ∃ t, step s = .next t

/-- R52: `PIN` keeps its canonical form in every step. -/
def Obligations.PinStaysCanonical : Prop :=
  ∀ s t : State, Memory.wf s.env.pin = true → step s = .next t → Memory.wf t.env.pin = true

/-- R21, R31: no step reads a register that holds no value: two machines that agree on the registers that hold one, and on
the ports, step alike, so nothing is retained from one command to the next. -/
def Obligations.NoValueRegistersUnread : Prop :=
  ∀ s t : State, SameValues s.enc t.enc → s.env = t.env → SameOutcome (step s) (step t)

/-- R54, R25: bytes leave in index order: what a step puts on `FOUT` is one byte, at the next index of its frame. -/
def Obligations.EmittedInIndexOrder : Prop :=
  ∀ s t : State, Inv s → step s = .next t →
    t.env.fout = s.takeInputs.env.fout ∨
    (∃ b, t.env.fout = s.takeInputs.env.fout ++ [(framePos s.takeInputs.enc, b)] ∧
      framePos s.takeInputs.enc < s.takeInputs.enc.rFlen.toNat ∧
      (t.enc.busy = true → framePos t.enc = framePos s.takeInputs.enc + 1))

/-- R176: `BUSY` falls in the step that emits frame byte `R_FLEN - 1`, and in no other emitting step. -/
def Obligations.BusyFallsWithLastByte : Prop :=
  ∀ (s t : State) (b : Byte), Inv s → step s = .next t →
    t.env.fout = s.takeInputs.env.fout ++ [(framePos s.takeInputs.enc, b)] →
    (t.enc.busy = false ↔ framePos s.takeInputs.enc + 1 = s.takeInputs.enc.rFlen.toNat) ∧
    (t.enc.busy = false → t.enc.kv = false)

/-- R224: from one step of a frame to the next the key, the header, the masked flag and the length do not change, and
while a masked frame is in flight the key the masker takes is the one in the header's last four bytes, in index order (an
order the spec marks as its own, R131, decision D23, G1; R22, R24 for the other registers). -/
def Obligations.KeyStableInFlight : Prop :=
  (∀ s t : State, s.takeInputs.enc.busy = true → t.enc.busy = true → step s = .next t →
    t.enc.k = s.takeInputs.enc.k ∧ t.enc.hbuf = s.takeInputs.enc.hbuf ∧ t.enc.hlen = s.takeInputs.enc.hlen ∧
    t.enc.qMask = s.takeInputs.enc.qMask ∧ t.enc.qPl = s.takeInputs.enc.qPl) ∧
  (∀ s : State, Inv s → s.enc.busy = true → s.enc.qMask = true →
    ∃ key, s.enc.k = some key ∧ s.enc.hbuf.drop (s.enc.hlen.toNat - 4) = [key.k0, key.k1, key.k2, key.k3] ∧
      ∀ b, s.enc.maskByte b = some (b ^^^ key.byte s.enc.pidx.toNat))

/-- R53, R130, R199: a step draws at most one key, and only one that accepts a masked command, which then uses that key. -/
def Obligations.KeyDrawnOncePerMaskedAccept : Prop :=
  ∀ s t : State, step s = .next t →
    t.env.keys = s.takeInputs.env.keys ∨
    (∃ key, s.takeInputs.env.keys = key :: t.env.keys ∧ s.takeInputs.enc.phase = .idle ∧ t.enc.phase = .hdr ∧
      t.enc.qMask = true ∧ t.enc.k = some key)

/-- R60: the encoder never writes the payload input: a step leaves `PIN` as it was, or, where it accepts a command, turns
to that command's own source bytes. -/
def Obligations.PayloadInputNeverWritten : Prop :=
  ∀ s t : State, step s = .next t →
    t.env.pin = s.takeInputs.env.pin ∨
    (s.takeInputs.enc.phase = .idle ∧ t.enc.phase = .hdr ∧
      ∃ c rest, s.takeInputs.env.cmd = c :: rest ∧ ∀ i, srcRead t.env i = c.src[i]?)

/-! ### The step level equals the value level -/

/-- R178 (b), R179: an accepted command, with every hold lifted, takes `1 + HL + PL` steps and puts out exactly the frame of
the value level, each byte with its index; then `RES`, `PHASE`, `KV`, the key source, `CMD` and `PIN` are as the rule says. -/
def Obligations.RunEmitsFrame : Prop :=
  ∀ (s : State) (c : Command) (rest : List Command) (r : Request) (key : Option Key) (keys : List Key),
    s.enc.phase = .idle → Undisturbed s.env → s.env.cmd = c :: rest →
    resolve Config.maxlen c.cw0 c.cw1 = .ok r → Draws r.mask s.env.keys key keys → r.n ≤ c.src.length →
    ∃ (f : List Byte) (t : State),
      (∀ k : Key, (r.mask = true → key = some k) → frame Config.maxlen c.cw0 c.cw1 c.src k = .ok f) ∧
      f.length = hLen r.mask r.pl + r.pl ∧
      Host.Core.run core (1 + f.length) s = .next t ∧
      t.env.fout = s.env.fout ++ cellsFrom 0 f ∧
      t.enc.phase = .idle ∧ t.enc.kv = false ∧ t.enc.status = .ok ∧ t.enc.detail = .none ∧
      t.enc.rHlen.toNat = hLen r.mask r.pl ∧ t.enc.rFlen.toNat = f.length ∧
      t.env.cmd = rest ∧ t.env.keys = keys ∧ (∀ i, srcRead t.env i = c.src[i]?) ∧ Undisturbed t.env

/-- R146, R63, R221: at every moment of a frame the sink holds the frame's first bytes and nothing else of it, however long
the sink, the source or anything else makes the encoder wait: let `f` be the frame of the registers and of a payload `p`
that every source byte supplied so far agrees with; if the sink holds `f` up to the encoder's place before a step, then after
a step without RESET it holds `f` up to the new place, or all of it when the frame is complete. -/
def Obligations.FramePrefixKept : Prop :=
  ∀ (s t : State) (base : List Host.Cell) (p : List Byte),
    Inv s → s.enc.busy = true → s.takeInputs.env.resetLine = false → p.length = s.enc.qPl.toNat →
    (∀ (i : Nat) (b : Byte), s.takeInputs.payByte i = .byte b → i < p.length → p[i]? = some b) →
    s.takeInputs.env.fout =
      base ++ cellsFrom 0 ((frameOf s.enc.qFin s.enc.qOpc s.enc.k p).take (framePos s.enc)) →
    step s = .next t →
    (t.enc.busy = true ∧
      t.env.fout = base ++ cellsFrom 0 ((frameOf s.enc.qFin s.enc.qOpc s.enc.k p).take (framePos t.enc))) ∨
    (t.enc.busy = false ∧ t.env.fout = base ++ cellsFrom 0 (frameOf s.enc.qFin s.enc.qOpc s.enc.k p))

/-- R178 (a): a command whose frame is an error takes one step, which puts nothing out and draws no key. -/
def Obligations.RunRefusesCommand : Prop :=
  ∀ (s : State) (c : Command) (rest : List Command) (k : Key) (cause : Cause),
    s.enc.phase = .idle → Undisturbed s.env → s.env.cmd = c :: rest →
    frame Config.maxlen c.cw0 c.cw1 c.src k = .error cause →
    ∃ t, Host.Core.run core 1 s = .next t ∧ t.env.fout = s.env.fout ∧ t.env.keys = s.env.keys ∧
      t.env.cmd = rest ∧ t.enc.status = cause.status ∧ t.enc.detail = cause.detail ∧
      t.enc.rHlen = 0 ∧ t.enc.rFlen = 0 ∧ t.enc.phase = .idle

/-! ### The header -/

/-- R121, R122: header byte 0 is `(fin << 7) | opcode`, and RSV1, RSV2, RSV3 are 0 in every header. -/
def Obligations.HeaderByte0 : Prop :=
  ∀ (fin : Bool) (opc : BitVec 4) (key : Option Key) (pl : Nat),
    ∃ b, (header fin opc key pl)[0]? = some b ∧ b.toNat = (if fin then 128 else 0) + opc.toNat ∧
      b.getLsbD 6 = false ∧ b.getLsbD 5 = false ∧ b.getLsbD 4 = false

/-- R123: header byte 1, the masked flag and the three regimes. -/
def Obligations.HeaderByte1 : Prop :=
  ∀ (fin : Bool) (opc : BitVec 4) (key : Option Key) (pl : Nat),
    ∃ b, (header fin opc key pl)[1]? = some b ∧ b.getLsbD 7 = key.isSome ∧
      (pl < 126 → (b.extractLsb' 0 7).toNat = pl) ∧
      (126 ≤ pl → pl < 65536 → (b.extractLsb' 0 7).toNat = 126) ∧
      (65536 ≤ pl → (b.extractLsb' 0 7).toNat = 127)

/-- R125, R12, R126: the extended length is empty, or the exact length big-endian in 2 or 8 bytes, which stand in the
header directly after byte 1. -/
def Obligations.ExtendedLengthExact : Prop :=
  ∀ (fin : Bool) (opc : BitVec 4) (key : Option Key) (pl : Nat), pl < 2 ^ 64 →
    ((header fin opc key pl).drop 2).take (extLen pl).length = extLen pl ∧
    (pl < 126 → extLen pl = []) ∧
    (126 ≤ pl → pl < 65536 → (extLen pl).length = 2 ∧ beValue (extLen pl) = pl) ∧
    (65536 ≤ pl → (extLen pl).length = 8 ∧ beValue (extLen pl) = pl)

/-- R126: the eight bytes are the high four of `floor(PL / 2^32)` then the low four of `PL mod 2^32`, with no loss. -/
def Obligations.ExtendedLengthHalves : Prop :=
  ∀ n : BitVec 64, ∀ hi lo : BitVec 32, hi.toNat = n.toNat / 2 ^ 32 → lo.toNat = n.toNat % 2 ^ 32 →
    be64 n = [hi.extractLsb' 24 8, hi.extractLsb' 16 8, hi.extractLsb' 8 8, hi.extractLsb' 0 8,
              lo.extractLsb' 24 8, lo.extractLsb' 16 8, lo.extractLsb' 8 8, lo.extractLsb' 0 8]

/-- R127: no regime is chosen where a smaller one suffices, and the header is as short as its payload length allows: any
bytes, whole up to the end of their extended length, from which a reader (R97) gets the length `pl` announce a header at
least as long as the encoder's. -/
def Obligations.HeaderMinimal : Prop :=
  ∀ pl : Nat, (len7 pl = 126 → 126 ≤ pl) ∧ (len7 pl = 127 → 65536 ≤ pl) ∧
    ∀ (b0 b1 : Byte) (rest : List Byte) (hl : Nat),
      readLengths (b0 :: b1 :: rest) = some (hl, pl) → hLen (b1.getLsbD 7) pl ≤ hl

/-- R128: in the 64-bit regime the top bit of header byte 2 is 0. -/
def Obligations.ExtendedLengthTopBitClear : Prop :=
  ∀ (fin : Bool) (opc : BitVec 4) (key : Option Key) (pl : Nat), 65536 ≤ pl → pl ≤ Config.maxlen →
    ∃ b, (header fin opc key pl)[2]? = some b ∧ b.getLsbD 7 = false

/-- R129, R133: the header's length, and its six values by regime and mask (R96). -/
def Obligations.HeaderLength : Prop :=
  ∀ (fin : Bool) (opc : BitVec 4) (key : Option Key) (pl : Nat),
    (header fin opc key pl).length = hLen key.isSome pl ∧
    hLen key.isSome pl =
      2 + (if pl < 126 then 0 else if pl < 65536 then 2 else 8) + (if key.isSome = true then 4 else 0)

/-- R131, R95: the key's four bytes, in index order, are the last four of a masked header (an order the spec marks as its
own, decision D23, G1). -/
def Obligations.KeyEndsHeader : Prop :=
  ∀ (fin : Bool) (opc : BitVec 4) (key : Key) (pl : Nat) (j : Nat), j < 4 →
    (header fin opc (some key) pl)[hLen true pl - 4 + j]? = some (key.byte j)

/-- R97: headers are self-delimiting: from a frame's bytes a reader gets `HL` and `PL` back, whatever follows the header. -/
def Obligations.HeaderSelfDelimiting : Prop :=
  ∀ (fin : Bool) (opc : BitVec 4) (key : Option Key) (pl : Nat) (payload : List Byte), pl < 2 ^ 64 →
    readLengths (header fin opc key pl ++ payload) = some (hLen key.isSome pl, pl)

/-! ### The masker and the frame -/

/-- R134: `M[i] = P[i] xor key[i mod 4]`, and the length is kept. -/
def Obligations.MaskBytesPointwise : Prop :=
  ∀ (key : Key) (p : List Byte),
    (maskBytes key p).length = p.length ∧
    ∀ i : Nat, (maskBytes key p)[i]? = p[i]?.map (· ^^^ key.byte (i % 4)) ∧
      [key.k0, key.k1, key.k2, key.k3][i % 4]? = some (key.byte i)

/-- R137: masking twice with one key gives the payload back; the all-zero key changes nothing; a payload masked in two
parts takes, for the second, the key turned by the first part's length; the length is kept. -/
def Obligations.MaskLaws : Prop :=
  ∀ (key : Key) (p q : List Byte),
    maskBytes key (maskBytes key p) = p ∧
    maskBytes ⟨0, 0, 0, 0⟩ p = p ∧
    maskBytes key (p ++ q) = maskBytes key p ++ maskBytes (key.rot (p.length % 4)) q ∧
    (maskBytes key p).length = p.length

/-- R141, R136: a frame is the header and one byte for each payload byte; without a key those bytes are the payload. -/
def Obligations.FrameLength : Prop :=
  ∀ (fin : Bool) (opc : BitVec 4) (key : Option Key) (p : List Byte),
    (frameOf fin opc key p).length = hLen key.isSome p.length + p.length ∧
    (key = none → (frameOf fin opc key p).drop (hLen key.isSome p.length) = p)

/-- R154, R135: the frame of a CLOSE with a code: the code's high byte, its low byte, then the reason with nothing between;
masked, they take `key[0]`, `key[1]` and, for reason byte `j`, `key[(j + 2) mod 4]`. -/
def Obligations.CloseFrameLayout : Prop :=
  ∀ (m : Nat) (masked : Bool) (code : BitVec 32) (len : Word) (src : List Byte) (key : Key),
    2 ^ 32 - 1 ≤ m → m ≤ 2 ^ 63 - 1 → code.toNat ≤ 65535 → code.toNat ≠ 1005 → src.length = len.toNat →
    2 + len.toNat ≤ m →
    ∃ f, frame m (encode (.close masked (some code) len)).1 (encode (.close masked (some code) len)).2 src key = .ok f ∧
      f.length = hLen masked (2 + len.toNat) + (2 + len.toNat) ∧
      (masked = false → f.drop (hLen masked (2 + len.toNat)) = [code.extractLsb' 8 8, code.extractLsb' 0 8] ++ src) ∧
      (masked = true →
        f[hLen masked (2 + len.toNat)]? = some (code.extractLsb' 8 8 ^^^ key.k0) ∧
        f[hLen masked (2 + len.toNat) + 1]? = some (code.extractLsb' 0 8 ^^^ key.k1) ∧
        ∀ j : Nat, f[hLen masked (2 + len.toNat) + 2 + j]? = src[j]?.map (· ^^^ key.byte ((j + 2) % 4)))

/-- R102: each builder is a fixed expansion into SYNTH, the same frame for the same key and the same error. For a source
shorter than the command needs, what both sides are is the model's choice (log entry 18). -/
def Obligations.BuildersExpandToSynth : Prop :=
  ∀ (m : Nat) (masked fin first : Bool) (code : BitVec 32) (len len2 : Word) (src : List Byte) (key : Key),
    let value := fun (i : Instr) (bytes : List Byte) => frame m (encode i).1 (encode i).2 bytes key
    value (.text masked len) src = value (.synth true masked 1 len) src ∧
    value (.binary masked fin first len) src = value (.synth fin masked (if first then 2 else 0) len) src ∧
    value (.ping masked) src = value (.synth true masked 9 0) [] ∧
    value (.pong masked len) src = value (.synth true masked 10 len) src ∧
    value (.close masked none len) src = value (.synth true masked 8 0) [] ∧
    value (.close masked (some 1005) len) src = value (.synth true masked 8 0) [] ∧
    (code.toNat ≤ 65535 → code.toNat ≠ 1005 → len2.toNat = 2 + len.toNat →
      value (.close masked (some code) len) src =
        value (.synth true masked 8 len2) ([code.extractLsb' 8 8, code.extractLsb' 0 8] ++ src))

/-- R6: `MAXLEN` lies between its two bounds. -/
def Obligations.MaxlenBounds : Prop :=
  2 ^ 32 - 1 ≤ Config.maxlen ∧ Config.maxlen ≤ 2 ^ 63 - 1

/-- R27, R55: what the host reads on `RES`; `BUSY` is `PHASE != IDLE`. Before the first RESET, where `PHASE` has no value, the
reading is the model's choice (log entry 17). -/
def Obligations.ResReads : Prop :=
  ∀ s : State, (s.res.busy = true ↔ s.enc.phase ≠ .idle) ∧ s.res.status = s.enc.status.code ∧
    s.res.detail = s.enc.detail.code ∧ s.res.rHlen = s.enc.rHlen ∧ s.res.rFlen = s.enc.rFlen

end
end

