-- ==== Sys2Proof/Laws/Decode.lean ====
section
/-!
SUPPORT. The fields of a packed `CW0`, each read back (spec 30_encoding.md R81), and the decoder by `KIND`.
-/

namespace Sys2Proof

/-! ### A bit of two joined fields: of the upper one from the lower one's width on, else of the lower one -/

theorem getLsbD_upper {n m : Nat} (upper : BitVec n) (lower : BitVec m) {i : Nat} (h : m ≤ i) :
    (upper ++ lower).getLsbD i = upper.getLsbD (i - m) := by
  simp [BitVec.getLsbD_append, Nat.not_lt.mpr h]

theorem getLsbD_lower {n m : Nat} (upper : BitVec n) (lower : BitVec m) {i : Nat} (h : i < m) :
    (upper ++ lower).getLsbD i = lower.getLsbD i := by
  simp [BitVec.getLsbD_append, h]

/-! ### The fields of a packed `CW0` -/

section
variable (code : BitVec 32) (opc : BitVec 4) (codev first fin masked : Bool) (kind : BitVec 3)

theorem kindOf_pack : kindOf (packCw0 code opc codev first fin masked kind) = kind := by
  unfold kindOf packCw0
  ext i hi
  simp only [BitVec.getElem_extractLsb', BitVec.getLsbD_append]
  simp [hi]

theorem maskedOf_pack : maskedOf (packCw0 code opc codev first fin masked kind) = masked := by
  simp only [maskedOf, packCw0, BitVec.getLsbD_append]; simp

theorem finOf_pack : finOf (packCw0 code opc codev first fin masked kind) = fin := by
  simp only [finOf, packCw0, BitVec.getLsbD_append]; simp

theorem firstOf_pack : firstOf (packCw0 code opc codev first fin masked kind) = first := by
  simp only [firstOf, packCw0, BitVec.getLsbD_append]; simp

theorem codevOf_pack : codevOf (packCw0 code opc codev first fin masked kind) = codev := by
  simp only [codevOf, packCw0, BitVec.getLsbD_append]; simp

theorem opcOf_pack : opcOf (packCw0 code opc codev first fin masked kind) = opc := by
  unfold opcOf packCw0
  ext i hi
  simp only [BitVec.getElem_extractLsb', BitVec.getLsbD_append]
  obtain rfl | rfl | rfl | rfl : i = 0 ∨ i = 1 ∨ i = 2 ∨ i = 3 := by omega
  all_goals simp [BitVec.getLsbD_eq_getElem]

theorem codeOf_pack : codeOf (packCw0 code opc codev first fin masked kind) = code := by
  unfold codeOf packCw0
  ext i hi
  simp (disch := omega) only [BitVec.getElem_extractLsb', getLsbD_upper]
  rw [← BitVec.getLsbD_eq_getElem]
  exact congrArg code.getLsbD (by omega)

/-- The reserved bits are bit 7 and bits 12 to 31 (R86). -/
theorem rsvdMask_getLsbD {i : Nat} (hi : i < 64) : rsvdMask.getLsbD i = true ↔ i = 7 ∨ (12 ≤ i ∧ i < 32) := by
  revert i; decide

theorem pack_reserved_bit {i : Nat} (h : i = 7 ∨ (12 ≤ i ∧ i < 32)) :
    (packCw0 code opc codev first fin masked kind).getLsbD i = false := by
  unfold packCw0
  rcases h with rfl | ⟨lo, hi⟩ <;>
    simp (disch := omega) only [getLsbD_upper, getLsbD_lower, BitVec.getLsbD_zero]

theorem rsvdSet_pack : rsvdSet (packCw0 code opc codev first fin masked kind) = false := by
  have h : packCw0 code opc codev first fin masked kind &&& rsvdMask = 0 := by
    apply BitVec.eq_of_getLsbD_eq
    intro i hi
    rw [BitVec.getLsbD_and]
    cases hm : rsvdMask.getLsbD i with
    | false => simp
    | true => simp [pack_reserved_bit code opc codev first fin masked kind ((rsvdMask_getLsbD hi).mp hm)]
  simp [rsvdSet, h]

end

end Sys2Proof
end

