-- ==== Sys2Proof/Laws/Memory.lean ====
section
/-!
SUPPORT. The payload input space: a read after a write, and that every operation keeps the canonical form.
-/

namespace Sys2Proof.Machine

theorem memory_read_write_same (m : Memory) (i : Nat) (b : Byte) : Memory.read (Memory.write m i b) i = some b := by
  induction m with
  | nil => simp [Memory.write, Memory.read]
  | cons c m ih =>
    simp only [Memory.write]
    split
    · simp [Memory.read]
    · split
      · simp [Memory.read]
      · rename_i h
        have h' : c.1 ≠ i := fun e => h e.symm
        simp [Memory.read, ih, h']

theorem memory_read_write_other (m : Memory) {i j : Nat} (b : Byte) (hij : i ≠ j) :
    Memory.read (Memory.write m i b) j = Memory.read m j := by
  induction m with
  | nil => simp [Memory.write, Memory.read, hij]
  | cons c m ih =>
    simp only [Memory.write]
    split
    · simp [Memory.read, hij]
    · split
      · rename_i h
        subst h
        simp [Memory.read, hij]
      · simp [Memory.read, ih]

/-- What canonical means, head first: a cell lies below every cell after it. -/
theorem memory_wf_cons (c : Host.Cell) (m : Memory) :
    Memory.wf (c :: m) = true ↔ (∀ d, m.head? = some d → c.1 < d.1) ∧ Memory.wf m = true := by
  cases m <;> simp [Memory.wf]

theorem memory_head_write (m : Memory) (i : Nat) (b : Byte) (d : Host.Cell) (h : (Memory.write m i b).head? = some d) :
    d.1 = i ∨ m.head? = some d := by
  cases m with
  | nil => simp only [Memory.write, List.head?_cons, Option.some.injEq] at h; simp [← h]
  | cons c m =>
    simp only [Memory.write] at h
    split at h
    · simp only [List.head?_cons, Option.some.injEq] at h; simp [← h]
    · split at h <;> simp only [List.head?_cons, Option.some.injEq] at h <;> simp [← h]

theorem memory_wf_write (m : Memory) (i : Nat) (b : Byte) (h : Memory.wf m = true) :
    Memory.wf (Memory.write m i b) = true := by
  induction m with
  | nil => simp [Memory.write, Memory.wf]
  | cons c m ih =>
    have hc := (memory_wf_cons c m).mp h
    simp only [Memory.write]
    split
    · rename_i hi
      refine (memory_wf_cons _ _).mpr ⟨?_, h⟩
      simpa using hi
    · split
      · rename_i hi
        subst hi
        exact (memory_wf_cons _ _).mpr ⟨hc.1, hc.2⟩
      · refine (memory_wf_cons _ _).mpr ⟨fun d hd => ?_, ih hc.2⟩
        rcases memory_head_write m i b d hd with hd | hd
        · omega
        · exact hc.1 d hd

theorem memory_wf_ofBytesFrom (i : Nat) (bytes : List Byte) : Memory.wf (Memory.ofBytesFrom i bytes) = true := by
  induction bytes generalizing i with
  | nil => rfl
  | cons b bs ih =>
    refine (memory_wf_cons _ _).mpr ⟨fun d hd => ?_, ih _⟩
    cases bs with
    | nil => simp [Memory.ofBytesFrom] at hd
    | cons b' bs =>
      simp only [Memory.ofBytesFrom, List.head?_cons, Option.some.injEq] at hd
      simp [← hd]

theorem memory_wf_ofBytes (bytes : List Byte) : Memory.wf (Memory.ofBytes bytes) = true :=
  memory_wf_ofBytesFrom 0 bytes

theorem memory_read_ofBytesFrom (i : Nat) (bytes : List Byte) (j : Nat) :
    Memory.read (Memory.ofBytesFrom i bytes) (i + j) = bytes[j]? := by
  induction bytes generalizing i j with
  | nil => simp [Memory.ofBytesFrom, Memory.read]
  | cons b bs ih =>
    cases j with
    | zero => simp [Memory.ofBytesFrom, Memory.read]
    | succ j =>
      have := ih (i + 1) j
      simp only [Memory.ofBytesFrom, Memory.read, List.getElem?_cons_succ]
      rw [if_neg (by omega), ← this]
      congr 1
      omega

/-- A command's source bytes are read back at their own indexes (R52). -/
theorem memory_read_ofBytes (bytes : List Byte) (j : Nat) : Memory.read (Memory.ofBytes bytes) j = bytes[j]? := by
  simpa [Memory.ofBytes] using memory_read_ofBytesFrom 0 bytes j

/-- No move of the environment breaks the canonical form of `PIN`. -/
theorem env_apply_pin_wf (v : Env) (ev : EnvEvent) (h : Memory.wf v.pin = true) :
    Memory.wf (v.apply ev).pin = true := by
  cases ev <;> simp only [Env.apply] <;> first | exact h | exact memory_wf_write _ _ _ h

theorem env_applyAll_pin_wf (es : List EnvEvent) (v : Env) (h : Memory.wf v.pin = true) :
    Memory.wf (es.foldl Env.apply v).pin = true := by
  induction es generalizing v with
  | nil => exact h
  | cons ev es ih => exact ih _ (env_apply_pin_wf v ev h)

theorem takeInputs_pin_wf (s : State) (h : Memory.wf s.env.pin = true) : Memory.wf s.takeInputs.env.pin = true := by
  unfold State.takeInputs
  split
  · exact h
  · exact env_applyAll_pin_wf _ _ h

end Sys2Proof.Machine
end

