-- ==== Sys2Proof/Laws/Operands.lean ====
section
/-!
SUPPORT. One spec lemma for each value-level function: lengths, the key, the masker, the length test.
-/

namespace Sys2Proof.Machine

/-! ### `MAXLEN` -/

theorem minMaxlen_le_maxlen : Config.minMaxlen ≤ Config.maxlen := Nat.le_add_right _ _

theorem maxlen_le_maxMaxlen : Config.maxlen ≤ Config.maxMaxlen := by
  have h : Config.maxlenOpen % (Config.maxMaxlen - Config.minMaxlen + 1) < Config.maxMaxlen - Config.minMaxlen + 1 :=
    Nat.mod_lt _ (by decide)
  unfold Config.maxlen
  simp only [Config.maxMaxlen, Config.minMaxlen] at *
  omega

theorem maxlen_lt_two_pow : Config.maxlen < 2 ^ 63 :=
  Nat.lt_of_le_of_lt maxlen_le_maxMaxlen (by decide)

/-- The length test is the comparison of R195, for every admissible `MAXLEN`. -/
theorem exceeds_iff {m : Nat} (lo : Config.minMaxlen ≤ m) (hi : m ≤ Config.maxMaxlen) (pl : Nat) :
    exceeds m pl = true ↔ m < pl := by
  unfold exceeds
  split
  · simp; omega
  · split
    · simp; omega
    · simp

theorem exceeds_maxlen_iff (pl : Nat) : exceeds Config.maxlen pl = true ↔ Config.maxlen < pl :=
  exceeds_iff minMaxlen_le_maxlen maxlen_le_maxMaxlen pl

theorem exceeds_maxlen_false_iff (pl : Nat) : exceeds Config.maxlen pl = false ↔ pl ≤ Config.maxlen := by
  rw [← Bool.not_eq_true, exceeds_maxlen_iff, Nat.not_lt]

/-- No admissible `MAXLEN` refuses an empty payload. -/
@[simp] theorem exceeds_zero (m : Nat) : exceeds m 0 = false := by simp [exceeds]

/-! ### Lengths -/

@[simp] theorem be16_length (n : BitVec 16) : (be16 n).length = 2 := rfl
@[simp] theorem be64_length (n : BitVec 64) : (be64 n).length = 8 := rfl
@[simp] theorem closeBytes_length (code : BitVec 32) : (closeBytes code).length = 2 := rfl
@[simp] theorem key_toList_length (key : Key) : key.toList.length = 4 := rfl

theorem extLen_length (pl : Nat) : (extLen pl).length = if pl < 126 then 0 else if pl < 65536 then 2 else 8 := by
  unfold extLen; split
  · rfl
  · split <;> rfl

theorem keyBytes_length (key : Option Key) : (keyBytes key).length = if key.isSome then 4 else 0 := by
  cases key <;> rfl

/-- `HLen` by regime (R96, R129). -/
theorem hLen_eq (mask : Bool) (pl : Nat) :
    hLen mask pl = 2 + (if pl < 126 then 0 else if pl < 65536 then 2 else 8) + (if mask then 4 else 0) := by
  rw [hLen, extLen_length]

theorem hLen_cases (mask : Bool) (pl : Nat) :
    hLen mask pl = 2 ∨ hLen mask pl = 4 ∨ hLen mask pl = 6 ∨ hLen mask pl = 8 ∨ hLen mask pl = 10 ∨
      hLen mask pl = 14 := by
  rw [hLen_eq]
  split
  · cases mask <;> simp
  · split <;> cases mask <;> simp

theorem hLen_le (mask : Bool) (pl : Nat) : hLen mask pl ≤ 14 := by
  rcases hLen_cases mask pl with h | h | h | h | h | h <;> omega

theorem two_le_hLen (mask : Bool) (pl : Nat) : 2 ≤ hLen mask pl := by
  rcases hLen_cases mask pl with h | h | h | h | h | h <;> omega

/-- The header the encoder writes is as long as `HLEN` says. -/
theorem header_length_hLen (fin : Bool) (opc : BitVec 4) (key : Option Key) (pl : Nat) :
    (header fin opc key pl).length = hLen key.isSome pl := by
  simp [header, hLen, keyBytes_length]
  omega

theorem toNat_hLen (mask : Bool) (pl : Nat) : (BitVec.ofNat 4 (hLen mask pl)).toNat = hLen mask pl := by
  have := hLen_le mask pl
  simp only [BitVec.toNat_ofNat]; omega

/-! ### The key and the masker -/

/-- Only `i mod 4` matters (R134). -/
@[simp] theorem key_byte_mod (key : Key) (i : Nat) : key.byte (i % 4) = key.byte i := by
  simp [Key.byte]

theorem key_byte_congr (key : Key) {i j : Nat} (h : i % 4 = j % 4) : key.byte i = key.byte j := by
  simp [Key.byte, h]

theorem key_toList_getElem? (key : Key) (j : Nat) (h : j < 4) : key.toList[j]? = some (key.byte j) := by
  match j, h with
  | 0, _ => rfl
  | 1, _ => rfl
  | 2, _ => rfl
  | 3, _ => rfl

@[simp] theorem maskFrom_length (key : Key) (i : Nat) (p : List Byte) : (maskFrom key i p).length = p.length := by
  induction p generalizing i with
  | nil => rfl
  | cons b bs ih => simp [maskFrom, ih]

theorem maskFrom_getElem? (key : Key) (i : Nat) (p : List Byte) (j : Nat) :
    (maskFrom key i p)[j]? = p[j]?.map (· ^^^ key.byte (i + j)) := by
  induction p generalizing i j with
  | nil => simp [maskFrom]
  | cons b bs ih =>
    cases j with
    | zero => simp [maskFrom]
    | succ j => simp [maskFrom, ih, Nat.add_assoc, Nat.add_comm 1 j]

theorem maskFrom_append (key : Key) (i : Nat) (p q : List Byte) :
    maskFrom key i (p ++ q) = maskFrom key i p ++ maskFrom key (i + p.length) q := by
  induction p generalizing i with
  | nil => simp [maskFrom]
  | cons b bs ih => simp [maskFrom, ih, Nat.add_assoc, Nat.add_comm 1]

theorem payloadPart_length (key : Option Key) (p : List Byte) : (payloadPart key p).length = p.length := by
  cases key <;> simp [payloadPart, maskBytes]

/-- Byte `i` of the payload part, masked where there is a key. -/
theorem payloadPart_getElem? (key : Option Key) (p : List Byte) (i : Nat) :
    (payloadPart key p)[i]? = p[i]?.map (fun b => match key with | none => b | some k => b ^^^ k.byte i) := by
  cases key with
  | none => simp [payloadPart]
  | some k => simp [payloadPart, maskBytes, maskFrom_getElem?]

/-! ### `Resolve` -/

theorem emitFrame_ok {m : Nat} {fin : Bool} {opc : BitVec 4} {mask : Bool} {pfx : List Byte} {n : Nat}
    (h : exceeds m (pfx.length + n) = false) : emitFrame m fin opc mask pfx n = .ok ⟨fin, opc, mask, pfx, n⟩ := by
  simp [emitFrame, h]

theorem emitFrame_tooLong {m : Nat} {fin : Bool} {opc : BitVec 4} {mask : Bool} {pfx : List Byte} {n : Nat}
    (h : exceeds m (pfx.length + n) = true) : emitFrame m fin opc mask pfx n = .error .tooLong := by
  simp [emitFrame, h]

theorem validOpcode_iff (opc : BitVec 4) :
    validOpcode opc = true ↔ opc = 0 ∨ opc = 1 ∨ opc = 2 ∨ opc = 8 ∨ opc = 9 ∨ opc = 10 := by
  simp [validOpcode, or_assoc]

/-- The opcodes and prefixes a command can resolve to, and that its payload fits (R159: "A `Request` always has …"). -/
theorem resolve_ok {m : Nat} {cw0 cw1 : Word} {r : Request} (h : resolve m cw0 cw1 = .ok r) :
    validOpcode r.opc = true ∧ (r.pfx = [] ∨ ∃ a b, r.pfx = [a, b]) ∧ exceeds m r.pl = false ∧ r.mask = maskedOf cw0 := by
  unfold resolve at h
  iterate 4 (split at h; · contradiction)
  rename_i _ _ hop _
  dsimp only at h
  split at h
  · contradiction
  rename_i hx
  cases h
  refine ⟨?_, ?_, by simpa [Request.pl] using hx, rfl⟩
  · unfold resolveArgs
    split
    · rename_i h0
      simpa [h0] using hop
    · rfl
    · dsimp only; cases firstOf cw0 <;> rfl
    · rfl
    · rfl
    · rfl
  · unfold resolveArgs
    split
    · exact .inl rfl
    · exact .inl rfl
    · exact .inl rfl
    · dsimp only [closePayload]
      split
      · exact .inl rfl
      · exact .inr ⟨_, _, rfl⟩
    · exact .inl rfl
    · exact .inl rfl

theorem frame_ok {m : Nat} {cw0 cw1 : Word} {r : Request} (h : resolve m cw0 cw1 = .ok r) (src : List Byte) (k : Key) :
    frame m cw0 cw1 src k =
      .ok (frameOf r.fin r.opc (if r.mask then some k else none) (r.pfx ++ src.take r.n)) := by
  simp [frame, h]

theorem frame_error {m : Nat} {cw0 cw1 : Word} {cause : Cause} (src : List Byte) (k : Key) :
    frame m cw0 cw1 src k = .error cause ↔ resolve m cw0 cw1 = .error cause := by
  unfold frame; split <;> simp_all

end Sys2Proof.Machine
end

