-- ==== Sys2Proof/Laws/State.lean ====
section
/-!
SUPPORT. What each update of the state leaves in each field, so that no later proof unfolds a record update.
-/

namespace Sys2Proof.Machine

section
variable (s : State) (e : Encoder) (v : Env) (j : Nat) (b : Byte) (r : Request) (key : Option Key) (c : Command)
  (rest : List Command) (keys : List Key) (cause : Cause) (mask : Bool) (pl : Nat)

/-! ### emit -/
@[simp] theorem emit_enc : (s.emit j b).enc = s.enc := rfl
@[simp] theorem emit_fout : (s.emit j b).env.fout = s.env.fout ++ [(j, b)] := rfl
@[simp] theorem emit_cmd : (s.emit j b).env.cmd = s.env.cmd := rfl
@[simp] theorem emit_pin : (s.emit j b).env.pin = s.env.pin := rfl
@[simp] theorem emit_keys : (s.emit j b).env.keys = s.env.keys := rfl
@[simp] theorem emit_sinkReady : (s.emit j b).env.sinkReady = s.env.sinkReady := rfl
@[simp] theorem emit_resetLine : (s.emit j b).env.resetLine = s.env.resetLine := rfl
@[simp] theorem emit_inputs : (s.emit j b).env.inputs = s.env.inputs := rfl

/-! ### complete -/
@[simp] theorem complete_phase : e.complete.phase = .idle := rfl
@[simp] theorem complete_k : e.complete.k = none := rfl
@[simp] theorem complete_hidx : e.complete.hidx = e.hidx := rfl
@[simp] theorem complete_pidx : e.complete.pidx = e.pidx := rfl
@[simp] theorem complete_qMask : e.complete.qMask = e.qMask := rfl
@[simp] theorem complete_qPl : e.complete.qPl = e.qPl := rfl
@[simp] theorem complete_hbuf : e.complete.hbuf = e.hbuf := rfl
@[simp] theorem complete_hlen : e.complete.hlen = e.hlen := rfl
@[simp] theorem complete_status : e.complete.status = e.status := rfl
@[simp] theorem complete_detail : e.complete.detail = e.detail := rfl
@[simp] theorem complete_rHlen : e.complete.rHlen = e.rHlen := rfl
@[simp] theorem complete_rFlen : e.complete.rFlen = e.rFlen := rfl

/-! ### takeError -/
@[simp] theorem takeError_enc : (s.takeError cause rest).enc = s.enc.resultError cause := rfl
@[simp] theorem takeError_cmd : (s.takeError cause rest).env.cmd = rest := rfl
@[simp] theorem takeError_pin : (s.takeError cause rest).env.pin = s.env.pin := rfl
@[simp] theorem takeError_keys : (s.takeError cause rest).env.keys = s.env.keys := rfl
@[simp] theorem takeError_fout : (s.takeError cause rest).env.fout = s.env.fout := rfl
@[simp] theorem resultError_phase : (e.resultError cause).phase = e.phase := rfl
@[simp] theorem resultError_k : (e.resultError cause).k = e.k := rfl
@[simp] theorem resultError_status : (e.resultError cause).status = cause.status := rfl
@[simp] theorem resultError_detail : (e.resultError cause).detail = cause.detail := rfl
@[simp] theorem resultError_rHlen : (e.resultError cause).rHlen = 0 := rfl
@[simp] theorem resultError_rFlen : (e.resultError cause).rFlen = 0 := rfl

/-! ### startFrame -/
@[simp] theorem startFrame_enc : (s.startFrame r key c rest keys).enc = s.enc.startFrame r key := rfl
@[simp] theorem startFrame_cmd : (s.startFrame r key c rest keys).env.cmd = rest := rfl
@[simp] theorem startFrame_keys : (s.startFrame r key c rest keys).env.keys = keys := rfl
@[simp] theorem startFrame_pin : (s.startFrame r key c rest keys).env.pin = Memory.ofBytes c.src := rfl
@[simp] theorem startFrame_fout : (s.startFrame r key c rest keys).env.fout = s.env.fout := rfl
@[simp] theorem startFrame_sinkReady : (s.startFrame r key c rest keys).env.sinkReady = s.env.sinkReady := rfl
@[simp] theorem startFrame_resetLine : (s.startFrame r key c rest keys).env.resetLine = s.env.resetLine := rfl
@[simp] theorem startFrame_inputs : (s.startFrame r key c rest keys).env.inputs = s.env.inputs := rfl
@[simp] theorem startFrame_phase : (e.startFrame r key).phase = .hdr := rfl
@[simp] theorem startFrame_hidx : (e.startFrame r key).hidx = 0 := rfl
@[simp] theorem startFrame_pidx : (e.startFrame r key).pidx = 0 := rfl
@[simp] theorem startFrame_qFin : (e.startFrame r key).qFin = r.fin := rfl
@[simp] theorem startFrame_qOpc : (e.startFrame r key).qOpc = r.opc := rfl
@[simp] theorem startFrame_qMask : (e.startFrame r key).qMask = r.mask := rfl
@[simp] theorem startFrame_qPl : (e.startFrame r key).qPl = BitVec.ofNat 64 r.pl := rfl
@[simp] theorem startFrame_qPfxn : (e.startFrame r key).qPfxn = BitVec.ofNat 2 r.pfx.length := rfl
@[simp] theorem startFrame_qPfx0 : (e.startFrame r key).qPfx0 = r.pfx.getD 0 e.qPfx0 := rfl
@[simp] theorem startFrame_qPfx1 : (e.startFrame r key).qPfx1 = r.pfx.getD 1 e.qPfx1 := rfl
@[simp] theorem startFrame_k : (e.startFrame r key).k = key := rfl
@[simp] theorem startFrame_hlen : (e.startFrame r key).hlen = BitVec.ofNat 4 (hLen r.mask r.pl) := rfl
@[simp] theorem startFrame_hbuf : (e.startFrame r key).hbuf = header r.fin r.opc key r.pl := rfl
@[simp] theorem startFrame_status : (e.startFrame r key).status = .ok := rfl
@[simp] theorem startFrame_detail : (e.startFrame r key).detail = .none := rfl
@[simp] theorem startFrame_rHlen : (e.startFrame r key).rHlen = BitVec.ofNat 4 (hLen r.mask r.pl) := rfl
@[simp] theorem startFrame_rFlen : (e.startFrame r key).rFlen = BitVec.ofNat 64 (hLen r.mask r.pl + r.pl) := rfl

/-! ### resetStep -/
@[simp] theorem resetStep_enc : s.resetStep.enc = Encoder.reset := rfl
@[simp] theorem resetStep_env : s.resetStep.env = s.env := rfl

end

/-! ### takeInputs -/

/-- The environment's moves change no register of the encoder (R181). -/
@[simp] theorem takeInputs_enc (s : State) : s.takeInputs.enc = s.enc := by
  unfold State.takeInputs; split <;> rfl

/-- Where no move is outstanding, nothing moves. -/
theorem takeInputs_nil {s : State} (h : s.env.inputs = []) : s.takeInputs = s := by
  unfold State.takeInputs; split <;> simp_all

end Sys2Proof.Machine
end

