-- ==== Sys2Proof/Laws/Ops.lean ====
section
/-!
SUPPORT. What each shared operation can do: `accept`, `emitHdr` and `emitPay`, each answered case by case.
-/

namespace Sys2Proof.Machine

/-! ### accept -/

theorem accept_error {s : State} {c : Command} {rest : List Command} {cause : Cause}
    (hp : s.enc.phase = .idle) (hc : s.env.cmd = c :: rest) :
    accept (.error cause) s = .next (s.takeError cause rest) := by
  simp [accept, hp, hc]

theorem accept_unmasked {s : State} {c : Command} {rest : List Command} {r : Request}
    (hp : s.enc.phase = .idle) (hc : s.env.cmd = c :: rest) (hm : r.mask = false) :
    accept (.ok r) s = .next (s.startFrame r none c rest s.env.keys) := by
  simp [accept, hp, hc, hm]

theorem accept_masked {s : State} {c : Command} {rest : List Command} {r : Request} {key : Key} {keys : List Key}
    (hp : s.enc.phase = .idle) (hc : s.env.cmd = c :: rest) (hm : r.mask = true) (hk : s.env.keys = key :: keys) :
    accept (.ok r) s = .next (s.startFrame r (some key) c rest keys) := by
  simp [accept, hp, hc, hm, hk]

theorem accept_noKey {s : State} {c : Command} {rest : List Command} {r : Request}
    (hp : s.enc.phase = .idle) (hc : s.env.cmd = c :: rest) (hm : r.mask = true) (hk : s.env.keys = []) :
    accept (.ok r) s = .next s := by
  simp [accept, hp, hc, hm, hk]

theorem accept_noCommand {s : State} (r : Except Cause Request) (hp : s.enc.phase = .idle) (hc : s.env.cmd = []) :
    accept r s = .next s := by
  simp [accept, hp, hc]

theorem accept_busy {s : State} (r : Except Cause Request) (hp : s.enc.phase = .hdr ∨ s.enc.phase = .pay) :
    accept r s = .next s := by
  rcases hp with hp | hp <;> simp [accept, hp]

/-- All that `accept` can do in `IDLE`. -/
theorem accept_idle {s t : State} {r : Except Cause Request} (hp : s.enc.phase = .idle) (h : accept r s = .next t) :
    (s.env.cmd = [] ∧ t = s) ∨
    (∃ c rest, s.env.cmd = c :: rest ∧
      ((∃ cause, r = .error cause ∧ t = s.takeError cause rest) ∨
       (∃ q, r = .ok q ∧ q.mask = true ∧ s.env.keys = [] ∧ t = s) ∨
       (∃ q key keys, r = .ok q ∧ q.mask = true ∧ s.env.keys = key :: keys ∧
          t = s.startFrame q (some key) c rest keys) ∨
       (∃ q, r = .ok q ∧ q.mask = false ∧ t = s.startFrame q none c rest s.env.keys))) := by
  cases hc : s.env.cmd with
  | nil =>
    rw [accept_noCommand r hp hc] at h
    exact .inl ⟨rfl, (Host.Outcome.next.inj h).symm⟩
  | cons c rest =>
    refine .inr ⟨c, rest, rfl, ?_⟩
    cases r with
    | error cause =>
      rw [accept_error hp hc] at h
      exact .inl ⟨cause, rfl, (Host.Outcome.next.inj h).symm⟩
    | ok q =>
      cases hm : q.mask with
      | false =>
        rw [accept_unmasked hp hc hm] at h
        exact .inr (.inr (.inr ⟨q, rfl, hm, (Host.Outcome.next.inj h).symm⟩))
      | true =>
        cases hk : s.env.keys with
        | nil =>
          rw [accept_noKey hp hc hm hk] at h
          exact .inr (.inl ⟨q, rfl, hm, rfl, (Host.Outcome.next.inj h).symm⟩)
        | cons key keys =>
          rw [accept_masked hp hc hm hk] at h
          exact .inr (.inr (.inl ⟨q, key, keys, rfl, hm, rfl, (Host.Outcome.next.inj h).symm⟩))

/-- In `IDLE` an acceptance never stops. -/
theorem accept_idle_next {s : State} (r : Except Cause Request) (hp : s.enc.phase = .idle) : ∃ t, accept r s = .next t := by
  cases hc : s.env.cmd with
  | nil => exact ⟨_, accept_noCommand r hp hc⟩
  | cons c rest =>
    cases r with
    | error cause => exact ⟨_, accept_error hp hc⟩
    | ok q =>
      cases hm : q.mask with
      | false => exact ⟨_, accept_unmasked hp hc hm⟩
      | true =>
        cases hk : s.env.keys with
        | nil => exact ⟨_, accept_noKey hp hc hm hk⟩
        | cons key keys => exact ⟨_, accept_masked hp hc hm hk⟩

end Sys2Proof.Machine
end

