-- ==== Sys2Proof/Laws/PerInstr.lean ====
section
/-!
SUPPORT. One fact about every command as syntax: its descriptor has no reserved bit set and carries the command's `KIND`
(spec 30_encoding.md R81, R84, R86, R100).
-/

namespace Sys2Proof.Laws.Encoded
open Sys2Proof.Machine

/-- The descriptor of `i` is in the command set, under the number of `i`. -/
def Statement (i : Instr) : Prop := rsvdSet (encode i).1 = false ∧ (kindOf (encode i).1).toNat = kindNumber i

theorem synth (fin masked : Bool) (opc : BitVec 4) (len : Word) : Statement (.synth fin masked opc len) :=
  ⟨rsvdSet_pack .., congrArg BitVec.toNat (kindOf_pack ..)⟩

theorem text (masked : Bool) (len : Word) : Statement (.text masked len) :=
  ⟨rsvdSet_pack .., congrArg BitVec.toNat (kindOf_pack ..)⟩

theorem binary (masked fin first : Bool) (len : Word) : Statement (.binary masked fin first len) :=
  ⟨rsvdSet_pack .., congrArg BitVec.toNat (kindOf_pack ..)⟩

theorem close (masked : Bool) (code : Option (BitVec 32)) (len : Word) : Statement (.close masked code len) := by
  cases code <;> exact ⟨rsvdSet_pack .., congrArg BitVec.toNat (kindOf_pack ..)⟩

theorem ping (masked : Bool) : Statement (.ping masked) :=
  ⟨rsvdSet_pack .., congrArg BitVec.toNat (kindOf_pack ..)⟩

theorem pong (masked : Bool) (len : Word) : Statement (.pong masked len) :=
  ⟨rsvdSet_pack .., congrArg BitVec.toNat (kindOf_pack ..)⟩

end Sys2Proof.Laws.Encoded
end

