-- ==== Sys2Proof/Laws/Serial.lean ====
section
/-!
SUPPORT. What the two emitting steps can do, and which step a phase enables.
-/

namespace Sys2Proof.Machine

/-! ### EMIT_HDR -/

theorem emitHdr_held {s : State} (h : s.env.sinkReady = false) : emitHdr s = .next s := by
  simp [emitHdr, h]

theorem emitHdr_emits {s : State} {b : Byte} (h : s.env.sinkReady = true)
    (hb : s.enc.hbufAt s.enc.hidx.toNat = some b) :
    emitHdr s = .next { s.emit s.enc.hidx.toNat b with enc := s.enc.afterHdr } := by
  simp [emitHdr, h, hb]

/-- All that EMIT_HDR can do when it goes on. -/
theorem emitHdr_next {s t : State} (h : emitHdr s = .next t) :
    (s.env.sinkReady = false ∧ t = s) ∨
    (s.env.sinkReady = true ∧ ∃ b, s.enc.hbufAt s.enc.hidx.toNat = some b ∧
      t = { s.emit s.enc.hidx.toNat b with enc := s.enc.afterHdr }) := by
  cases hs : s.env.sinkReady with
  | false =>
    rw [emitHdr_held hs] at h
    exact .inl ⟨rfl, (Host.Outcome.next.inj h).symm⟩
  | true =>
    cases hb : s.enc.hbufAt s.enc.hidx.toNat with
    | none => simp [emitHdr, hs, hb] at h
    | some b =>
      rw [emitHdr_emits hs hb] at h
      exact .inr ⟨rfl, b, rfl, (Host.Outcome.next.inj h).symm⟩

/-- The three ways EMIT_HDR ends (R173). -/
theorem afterHdr_cases (e : Encoder) :
    (e.hidx.toNat + 1 < e.hlen.toNat ∧ e.afterHdr = { e with hidx := e.hidx + 1 }) ∨
    (e.hlen.toNat ≤ e.hidx.toNat + 1 ∧ 0 < e.qPl.toNat ∧ e.afterHdr = { e with phase := .pay }) ∨
    (e.hlen.toNat ≤ e.hidx.toNat + 1 ∧ e.qPl.toNat = 0 ∧ e.afterHdr = e.complete) := by
  by_cases h : e.hidx.toNat + 1 < e.hlen.toNat
  · exact .inl ⟨h, by simp [Encoder.afterHdr, h]⟩
  · by_cases h' : 0 < e.qPl.toNat
    · exact .inr (.inl ⟨by omega, h', by simp [Encoder.afterHdr, h, h']⟩)
    · exact .inr (.inr ⟨by omega, by omega, by simp [Encoder.afterHdr, h, h']⟩)

/-! ### EMIT_PAY -/

theorem emitPay_held {s : State} (h : s.env.sinkReady = false) : emitPay s = .next s := by
  simp [emitPay, h]

theorem emitPay_waits {s : State} (hp : s.payByte s.enc.pidx.toNat = .wait) : emitPay s = .next s := by
  unfold emitPay; split <;> simp_all

theorem emitPay_emits {s : State} {b m : Byte} (h : s.env.sinkReady = true)
    (hb : s.payByte s.enc.pidx.toNat = .byte b) (hm : s.enc.maskByte b = some m) :
    emitPay s = .next { s.emit (s.enc.hlen.toNat + s.enc.pidx.toNat) m with enc := s.enc.afterPay } := by
  simp [emitPay, h, hb, hm]

/-- All that EMIT_PAY can do when it goes on. -/
theorem emitPay_next {s t : State} (h : emitPay s = .next t) :
    (s.env.sinkReady = false ∧ t = s) ∨
    (s.payByte s.enc.pidx.toNat = .wait ∧ t = s) ∨
    (s.env.sinkReady = true ∧ ∃ b m, s.payByte s.enc.pidx.toNat = .byte b ∧ s.enc.maskByte b = some m ∧
      t = { s.emit (s.enc.hlen.toNat + s.enc.pidx.toNat) m with enc := s.enc.afterPay }) := by
  cases hs : s.env.sinkReady with
  | false =>
    rw [emitPay_held hs] at h
    exact .inl ⟨rfl, (Host.Outcome.next.inj h).symm⟩
  | true =>
    cases hb : s.payByte s.enc.pidx.toNat with
    | wait =>
      rw [emitPay_waits hb] at h
      exact .inr (.inl ⟨rfl, (Host.Outcome.next.inj h).symm⟩)
    | noValue => simp [emitPay, hs, hb] at h
    | byte b =>
      cases hm : s.enc.maskByte b with
      | none => simp [emitPay, hs, hb, hm] at h
      | some m =>
        rw [emitPay_emits hs hb hm] at h
        exact .inr (.inr ⟨rfl, b, m, rfl, hm, (Host.Outcome.next.inj h).symm⟩)

/-- The two ways EMIT_PAY ends (R174). -/
theorem afterPay_cases (e : Encoder) :
    (e.pidx.toNat + 1 < e.qPl.toNat ∧ e.afterPay = { e with pidx := e.pidx + 1 }) ∨
    (e.qPl.toNat ≤ e.pidx.toNat + 1 ∧ e.afterPay = e.complete) := by
  by_cases h : e.pidx.toNat + 1 < e.qPl.toNat
  · exact .inl ⟨h, by simp [Encoder.afterPay, h]⟩
  · exact .inr ⟨by omega, by simp [Encoder.afterPay, h]⟩

/-! ### Which step is taken -/

theorem step_reset {s : State} (h : s.takeInputs.env.resetLine = true) : step s = .next s.takeInputs.resetStep := by
  simp [step, stepNow, h]

theorem step_hdr {s : State} (h : s.takeInputs.env.resetLine = false) (hp : s.enc.phase = .hdr) :
    step s = emitHdr s.takeInputs := by
  simp [step, stepNow, h, stepPhase, hp]

theorem step_pay {s : State} (h : s.takeInputs.env.resetLine = false) (hp : s.enc.phase = .pay) :
    step s = emitPay s.takeInputs := by
  simp [step, stepNow, h, stepPhase, hp]

theorem step_idle {s : State} (h : s.takeInputs.env.resetLine = false) (hp : s.enc.phase = .idle) :
    step s = stepIdle s.takeInputs := by
  simp [step, stepNow, h, stepPhase, hp]

theorem step_noValue {s : State} (h : s.takeInputs.env.resetLine = false) (hp : s.enc.phase = .noValue) :
    step s = .fault .beforeFirstReset := by
  simp [step, stepNow, h, stepPhase, hp]

end Sys2Proof.Machine
end

