-- ==== Sys2Proof/Tests/Slice0.lean ====
section
/-!
SUPPORT. Tests, whose expected results are the vectors of spec/95_test_vectors.md (the section stands beside each), and for
every obligation with hypotheses a witness: a concrete state and operands that meet all of them.
-/

namespace Sys2Proof.Tests
open Sys2Proof.Machine

/-! ### Small states -/

/-- After reset, with commands presented and key draws ready. -/
def waiting (cmds : List Command) (keys : List Key) : State :=
  { State.reset with env := { Env.initial with cmd := cmds, keys := keys } }

/-- The key draw of 95_test_vectors.md P4. -/
def keyP4 : Key := ⟨0x37, 0xFA, 0x21, 0x3D⟩

/-- The registers of 95_test_vectors.md P4 (TEXT "hi" masked), by phase and index. -/
def encP4 (phase : Phase) (hidx : BitVec 4) (pidx : BitVec 64) : Encoder :=
  { Encoder.reset with
      phase := phase, hidx := hidx, pidx := pidx, qFin := true, qOpc := 1, qMask := true, qPl := 2,
      k := some keyP4, hbuf := [0x81, 0x82, 0x37, 0xFA, 0x21, 0x3D], hlen := 6, rHlen := 6, rFlen := 8 }

/-- P4 in flight, the payload source holding "hi". -/
def flightP4 (phase : Phase) (hidx : BitVec 4) (pidx : BitVec 64) : State :=
  { enc := encP4 phase hidx pidx, env := { Env.initial with pin := [(0, 0x68), (1, 0x69)] } }

/-- An unmasked CLOSE 1000 "bye" in `PAY` (95_test_vectors.md section 1.3): two of its five bytes come from `Q_PFX`. -/
def flightClose (pidx : BitVec 64) : State :=
  { enc := { Encoder.reset with
      phase := .pay, hidx := 1, pidx := pidx, qFin := true, qOpc := 8, qPl := 5, qPfxn := 2, qPfx0 := 0x03,
      qPfx1 := 0xE8, hbuf := [0x88, 0x05], hlen := 2, rHlen := 2, rFlen := 7 },
    env := { Env.initial with pin := [(0, 0x62), (1, 0x79), (2, 0x65)] } }

/-- The state a step leaves, where it goes on. -/
def after (o : Host.Outcome State Fault Refusal) : Option State :=
  match o with
  | .next s => some s
  | .fault _ => none
  | .refused _ => none

/-! ### Decoding and encoding: words written out from R81 (section 2.1, 2.7) -/

theorem test_decode_synth_bits :
    decode (0#32 ++ 0#20 ++ 9#4 ++ 0#1 ++ 0#1 ++ 0#1 ++ 1#1 ++ 0#1 ++ 0#3) 4 = .ok (.synth true false 9 4) := rfl
theorem test_decode_text_bits :
    decode (0#32 ++ 0#20 ++ 0#4 ++ 0#1 ++ 0#1 ++ 0#1 ++ 0#1 ++ 1#1 ++ 1#3) 2 = .ok (.text true 2) := rfl
theorem test_decode_binary_bits :
    decode (0#32 ++ 0#20 ++ 0#4 ++ 0#1 ++ 0#1 ++ 0#1 ++ 1#1 ++ 1#1 ++ 2#3) 0 = .ok (.binary true true false 0) := rfl
theorem test_decode_close_bits :
    decode (0xFFFF#32 ++ 0#20 ++ 0#4 ++ 0#1 ++ 1#1 ++ 0#1 ++ 0#1 ++ 0#1 ++ 3#3) 0 =
      .ok (.close false (some 0xFFFF) 0) := rfl
theorem test_decode_ping_bits :
    decode (0#32 ++ 0#20 ++ 0#4 ++ 0#1 ++ 0#1 ++ 0#1 ++ 0#1 ++ 0#1 ++ 4#3) 7 = .ok (.ping false) := rfl
theorem test_decode_pong_bits :
    decode (0#32 ++ 0#20 ++ 0#4 ++ 0#1 ++ 0#1 ++ 0#1 ++ 0#1 ++ 1#1 ++ 5#3) 0 = .ok (.pong true 0) := rfl
/-- Section 2.5: TEXT with `OPC = 9` set. -/
theorem test_decode_text_ignores_opc : decode 0x0000000000000901 2 = .ok (.text false 2) := rfl
theorem test_decode_kind_seven : decode 0x0000000000000007 0 = .error .badKind := rfl
theorem test_decode_reserved_bit_12 : decode 0x0000000000001004 0 = .error .rsvdBits := rfl
theorem test_decode_reserved_bit_31 : decode 0x0000000080000005 0 = .error .rsvdBits := rfl

theorem test_encode_synth : encode (.synth true true 9 4) = (0x0000000000000918, 4) := by decide
theorem test_encode_binary : encode (.binary false true true 3) = (0x0000000000000032, 3) := by decide
theorem test_encode_close : encode (.close true (some 1000) 3) = (0x000003E80000004B, 3) := by decide
theorem test_encode_ping : encode (.ping true) = (0x000000000000000C, 0) := by decide

theorem test_table_word : decodeTableWord 128 (3 * 2 ^ 64 + 0x000003E80000004B) = some (.close true (some 1000) 3) := by
  decide
theorem test_table_word_short : decodeTableWord 64 0x000000000000000D = some (.pong true 0) := by decide
theorem test_table_word_refused : decodeTableWord 64 0x0000000000000006 = none := by decide

/-! ### WellFormed: every check refuses an ill-formed term, and takes its well-formed neighbour -/

theorem test_wf_refuses_opcode_3 : (Instr.synth true false 3 0).WellFormed = false := by decide
theorem test_wf_refuses_opcode_15 : (Instr.synth true false 15 0).WellFormed = false := by decide
theorem test_wf_takes_opcode_10 : (Instr.synth true false 10 0).WellFormed = true := by decide
theorem test_wf_refuses_code_65536 : (Instr.close false (some 65536) 0).WellFormed = false := by decide
theorem test_wf_takes_code_65535 : (Instr.close false (some 65535) 0).WellFormed = true := by decide

/-! ### The header's length field (section 2.2) -/

theorem test_header_125 : header true 2 none 125 = [0x82, 0x7D] := by decide
theorem test_header_126 : header true 2 none 126 = [0x82, 0x7E, 0x00, 0x7E] := by decide
theorem test_header_65535 : header true 2 none 65535 = [0x82, 0x7E, 0xFF, 0xFF] := by decide
theorem test_header_65536_masked :
    header true 2 (some ⟨0xAA, 0xBB, 0xCC, 0xDD⟩) 65536 =
      [0x82, 0xFF, 0, 0, 0, 0, 0, 1, 0, 0, 0xAA, 0xBB, 0xCC, 0xDD] := by decide
theorem test_header_two_pow_32_add_1 : header true 2 none (2 ^ 32 + 1) = [0x82, 0x7F, 0, 0, 0, 1, 0, 0, 0, 1] := by
  decide
theorem test_header_ceiling :
    header true 2 none (2 ^ 63 - 1) = [0x82, 0x7F, 0x7F, 0xFF, 0xFF, 0xFF, 0xFF, 0xFF, 0xFF, 0xFF] := by decide

/-! ### The masker (section 2.3) -/

theorem test_mask_wraps :
    maskBytes ⟨0x12, 0x34, 0x56, 0x78⟩ [0, 1, 2, 3, 4, 5, 6, 7, 8] =
      [0x12, 0x35, 0x54, 0x7B, 0x16, 0x31, 0x50, 0x7F, 0x1A] := by decide
theorem test_mask_hello :
    maskBytes keyP4 [0x48, 0x65, 0x6C, 0x6C, 0x6F] = [0x7F, 0x9F, 0x4D, 0x51, 0x58] := by decide

/-! ### Frames at the value level, `MAXLEN = 2^63 - 1` (sections 2.4 to 2.7) -/

theorem test_frame_synth :
    frame (2 ^ 63 - 1) 0x0000000000000918 4 [0x61, 0x62, 0x63, 0x64] ⟨1, 1, 1, 1⟩ =
      .ok [0x89, 0x84, 1, 1, 1, 1, 0x60, 0x63, 0x62, 0x65] := rfl
theorem test_frame_text :
    frame (2 ^ 63 - 1) 0x0000000000000901 2 [0x68, 0x69] keyP4 = .ok [0x81, 0x02, 0x68, 0x69] := rfl
theorem test_frame_binary :
    frame (2 ^ 63 - 1) 0x000000000000000A 2 [0x06, 0x07] ⟨0x0F, 0xF0, 0x55, 0xAA⟩ =
      .ok [0x00, 0x82, 0x0F, 0xF0, 0x55, 0xAA, 0x09, 0xF7] := rfl
theorem test_frame_close :
    frame (2 ^ 63 - 1) 0x000003E80000004B 3 [0x62, 0x79, 0x65] ⟨1, 2, 3, 4⟩ =
      .ok [0x88, 0x85, 1, 2, 3, 4, 0x02, 0xEA, 0x61, 0x7D, 0x64] := rfl
theorem test_frame_close_1005 :
    frame (2 ^ 63 - 1) 0x000003ED00000043 1 [0x78] keyP4 = .ok [0x88, 0x00] := rfl
theorem test_frame_ping : frame (2 ^ 63 - 1) 0x0000000000000004 0xFFFFFFFFFFFFFFFF [] keyP4 = .ok [0x89, 0x00] := rfl
theorem test_frame_pong : frame (2 ^ 63 - 1) 0x0000000000000005 2 [0x6F, 0x6B] keyP4 = .ok [0x8A, 0x02, 0x6F, 0x6B] := rfl

theorem test_error_reserved_first : resolve (2 ^ 63 - 1) 0x0000000000000380 0x8000000000000000 = .error .rsvdBits := rfl
theorem test_error_opcode_before_length :
    resolve (2 ^ 63 - 1) 0x0000000000000300 0x8000000000000000 = .error .badOpcode := rfl
theorem test_error_code_before_length :
    resolve (2 ^ 63 - 1) 0x0001000000000043 0xFFFFFFFFFFFFFFFF = .error .badCloseCode := rfl
theorem test_error_close_sum_does_not_wrap :
    resolve (2 ^ 63 - 1) 0x000003E800000043 0xFFFFFFFFFFFFFFFF = .error .tooLong := rfl
theorem test_close_at_ceiling :
    resolve (2 ^ 63 - 1) 0x000003E800000043 0x7FFFFFFFFFFFFFFD =
      .ok ⟨true, 8, false, [0x03, 0xE8], 2 ^ 63 - 3⟩ := rfl
theorem test_close_above_smallest_maxlen :
    resolve (2 ^ 32 - 1) 0x000003E800000043 0x00000000FFFFFFFE = .error .tooLong := rfl

/-! ### Single steps (section 3, P1 to P4) -/

/-- P4, step 1. -/
theorem test_step_accept :
    (after (step (waiting [⟨0x9, 2, [0x68, 0x69]⟩] [keyP4]))).map (fun t => (t.enc, t.env)) =
      some (encP4 .hdr 0 0, { Env.initial with pin := [(0, 0x68), (1, 0x69)] }) := by decide
/-- P4, step 2. -/
theorem test_step_first_header_byte :
    (after (step (flightP4 .hdr 0 0))).map (fun t => (t.enc, t.env.fout)) = some (encP4 .hdr 1 0, [(0, 0x81)]) := by
  decide
/-- P4, step 7. -/
theorem test_step_last_header_byte :
    (after (step (flightP4 .hdr 5 0))).map (fun t => (t.enc, t.env.fout)) = some (encP4 .pay 5 0, [(5, 0x3D)]) := by
  decide
/-- P4, step 8. -/
theorem test_step_first_payload_byte :
    (after (step (flightP4 .pay 5 0))).map (fun t => (t.enc, t.env.fout)) = some (encP4 .pay 5 1, [(6, 0x5F)]) := by
  decide
/-- P4, step 9. -/
theorem test_step_last_payload_byte :
    (after (step (flightP4 .pay 5 1))).map (fun t => (t.enc.phase, t.enc.kv, t.enc.busy, t.env.fout)) =
      some (.idle, false, false, [(7, 0x93)]) := by decide
/-- P3, command 2: refused in one step, no key drawn. -/
theorem test_step_refuses_close :
    (after (step (waiting [⟨0x000111700000004B, 0, []⟩] [keyP4]))).map (fun t => (t.res.status, t.res.detail, t.env)) =
      some (1, 4, (waiting [] [keyP4]).env) := by decide
/-- Section 1.3: the close code's low byte comes from `Q_PFX[1]`. -/
theorem test_step_prefix_byte :
    (after (step (flightClose 1))).map (fun t => (t.enc.pidx, t.env.fout)) = some (2, [(3, 0xE8)]) := by decide
/-- Section 1.3: the first reason byte is source byte 0. -/
theorem test_step_byte_after_prefix :
    (after (step (flightClose 2))).map (fun t => (t.enc.pidx, t.env.fout)) = some (3, [(4, 0x62)]) := by decide
/-- P4: RESET instead of step 8. -/
theorem test_step_reset :
    (after (step { flightP4 .pay 5 0 with env := { Env.initial with inputs := [[.resetLine true]] } })).map
      (fun t => (t.enc.phase, t.enc.kv, t.res.rFlen)) = some (.idle, false, 0) := by decide
/-- P4: the source has not supplied index 1. -/
theorem test_step_waits_for_source :
    after (step { flightP4 .pay 5 1 with env := { Env.initial with pin := [(0, 0x68)] } }) =
      some { flightP4 .pay 5 1 with env := { Env.initial with pin := [(0, 0x68)] } } := by decide
/-- The first step of section 2.5's masked PING, with the word presented as the host does. -/
theorem test_withFetchWord :
    (after (step (State.reset.withFetchWord 64 0xC))).map (fun t => (t.enc.phase, t.enc.qOpc, t.enc.rFlen)) =
      some (.hdr, 9, 6) := by decide

/-- R52: the canonical form. -/
theorem test_pin_canonical : Memory.wf [(0, 1), (1, 1)] = true ∧ Memory.wf [(1, 1), (0, 1)] = false ∧
    Memory.wf [(1, 1), (1, 2)] = false ∧ Memory.write [(1, 5)] 0 7 = [(0, 7), (1, 5)] := by decide
theorem test_reset_pin_canonical : Memory.wf State.reset.env.pin = true := by decide

/-! ### Witnesses: for each obligation with hypotheses, a state and operands that meet them all -/

theorem small_le_maxlen {n : Nat} (h : n ≤ Config.minMaxlen) : n ≤ Config.maxlen :=
  Nat.le_trans h minMaxlen_le_maxlen

theorem maxlen_lt_large {n : Nat} (h : Config.maxMaxlen < n) : Config.maxlen < n :=
  Nat.lt_of_le_of_lt maxlen_le_maxMaxlen h

/-- P4 before its last header byte, and in its payload, meets the invariant. -/
theorem flightP4_inFlight (phase : Phase) (hidx : BitVec 4) (pidx : BitVec 64) : FrameInFlight (encP4 phase hidx pidx) where
  key := rfl
  status := rfl
  rHlen := rfl
  rFlen := rfl
  hlen := .inr (.inr (.inl rfl))
  hbuf := show [0x81, 0x82, 0x37, 0xFA, 0x21, 0x3D] = header true 1 (some keyP4) 2 by decide
  hbufLen := rfl
  opc := rfl
  pl := small_le_maxlen (show 2 ≤ Config.minMaxlen by decide)
  pfxn := .inl rfl
  pfxnLe := Nat.zero_le _

theorem flightP4_res (phase : Phase) (hidx : BitVec 4) (pidx : BitVec 64) : LegalRes (encP4 phase hidx pidx) :=
  .inl ⟨rfl, rfl, .inr ⟨.inr (.inr (.inl rfl)), show 6 ≤ 8 by decide, Nat.le_add_right_of_le (show 8 ≤ 14 by decide)⟩⟩

theorem flightP4_hdr_inv : Inv (flightP4 .hdr 5 0) where
  phase := by decide
  idle := fun h => absurd h (by decide)
  flight := fun _ => flightP4_inFlight ..
  hdr := fun _ => by decide
  pay := fun h => absurd h (by decide)
  res := flightP4_res ..
  pin := rfl

theorem flightP4_pay_inv : Inv (flightP4 .pay 5 1) where
  phase := by decide
  idle := fun h => absurd h (by decide)
  flight := fun _ => flightP4_inFlight ..
  hdr := fun h => absurd h (by decide)
  pay := fun _ => by decide
  res := flightP4_res ..
  pin := rfl

/-- After reset, whatever is presented and ready: the invariant holds in `IDLE` too. -/
theorem waiting_inv (cmds : List Command) (keys : List Key) : Inv (waiting cmds keys) where
  phase := by simp [waiting, State.reset, Encoder.reset]
  idle := fun _ => rfl
  flight := fun h => by simp [waiting, State.reset, Encoder.reset] at h
  hdr := fun h => by simp [waiting, State.reset, Encoder.reset] at h
  pay := fun h => by simp [waiting, State.reset, Encoder.reset] at h
  res := .inl ⟨rfl, rfl, .inl ⟨rfl, rfl⟩⟩
  pin := rfl

/-! #### Descriptors -/

theorem witness_decodeTotal_reserved : (0x0000000080000005#64) &&& 0xFFFFF080#64 ≠ 0 := by decide
theorem witness_decodeTotal_kinds :
    (0x901#64 &&& 0xFFFFF080#64 = 0 ∧ (0x901#64).extractLsb' 0 3 = 1) ∧
    (0x6#64 &&& 0xFFFFF080#64 = 0 ∧ 6 ≤ ((0x6#64).extractLsb' 0 3).toNat) ∧
    (0x7#64 &&& 0xFFFFF080#64 = 0 ∧ 6 ≤ ((0x7#64).extractLsb' 0 3).toNat) ∧
    (0x918#64 &&& 0xFFFFF080#64 = 0 ∧ (0x918#64).extractLsb' 0 3 = 0) ∧
    (0x2A#64 &&& 0xFFFFF080#64 = 0 ∧ (0x2A#64).extractLsb' 0 3 = 2) ∧
    (0x43#64 &&& 0xFFFFF080#64 = 0 ∧ (0x43#64).extractLsb' 0 3 = 3 ∧ (0x43#64).getLsbD 6 = true) ∧
    (0x3#64 &&& 0xFFFFF080#64 = 0 ∧ (0x3#64).extractLsb' 0 3 = 3 ∧ (0x3#64).getLsbD 6 = false) ∧
    (0xC#64 &&& 0xFFFFF080#64 = 0 ∧ (0xC#64).extractLsb' 0 3 = 4) ∧
    (0xD#64 &&& 0xFFFFF080#64 = 0 ∧ (0xD#64).extractLsb' 0 3 = 5) := by decide
theorem witness_decodeTotal_noRow : ∀ k : Nat, k < 6 → 0x6#64 &&& 0x00000000FFFFF087#64 ≠ BitVec.ofNat 64 k := by decide

/-- The hypotheses of `IgnoredFieldsHaveNoEffect` on two descriptors. -/
def agreeOnReadFields (a0 a1 b0 b1 : Word) : Bool :=
  !rsvdSet a0 && !rsvdSet b0 && kindOf a0 == kindOf b0 && maskedOf a0 == maskedOf b0 &&
  (kindOf a0 != 0 || finOf a0 == finOf b0 && opcOf a0 == opcOf b0 && a1 == b1) &&
  (kindOf a0 != 1 || a1 == b1) &&
  (kindOf a0 != 2 || finOf a0 == finOf b0 && firstOf a0 == firstOf b0 && a1 == b1) &&
  (kindOf a0 != 3 || codevOf a0 == codevOf b0 &&
    (!codevOf a0 || codeOf a0 == codeOf b0 && ((codeOf a0).toNat == 1005 || a1 == b1))) &&
  (kindOf a0 != 5 || a1 == b1)

/-- Sections 2.4 to 2.6: descriptors that differ in ignored fields only, of SYNTH, TEXT, BINARY, CLOSE (no code, code 1005,
code 1000), PING and PONG. -/
theorem witness_ignoredFields :
    agreeOnReadFields 0x0000FFFF00000160 1 0x0000000000000100 1 = true ∧
    agreeOnReadFields 0x0000000000000901 2 0x0000000000000001 2 = true ∧
    agreeOnReadFields 0x0000000100000F72 3 0x0000000000000032 3 = true ∧
    agreeOnReadFields 0x0001117000000003 0 0x0000000000000003 0xFFFFFFFFFFFFFFFF = true ∧
    agreeOnReadFields 0x000003ED00000043 0 0x000003ED00000073 1 = true ∧
    agreeOnReadFields 0x000003E800000F43 3 0x000003E800000043 3 = true ∧
    agreeOnReadFields 0x0000000000000004 7 0x0000FFFF00000F74 0 = true ∧
    agreeOnReadFields 0x000000000000000D 0 0x000000000000004D 0 = true := by decide

/-! #### A step, and every command -/

/-- TEXT "hi" masked, its draw ready (P4): hypotheses of `StepRunsDecoded` and `StepAcceptsRequest`. -/
theorem witness_stepAccepts :
    ∃ (s : State) (c : Command) (i : Instr) (r : Request) (key : Option Key) (keys : List Key),
      s.takeInputs.env.resetLine = false ∧ s.takeInputs.enc.phase = .idle ∧ s.takeInputs.env.cmd = c :: [] ∧
      decode c.cw0 c.cw1 = .ok i ∧ resolve Config.maxlen c.cw0 c.cw1 = .ok r ∧ Draws r.mask s.takeInputs.env.keys key keys :=
  ⟨waiting [⟨0x9, 2, [0x68, 0x69]⟩] [keyP4], ⟨0x9, 2, [0x68, 0x69]⟩, .text true 2, ⟨true, 1, true, [], 2⟩, some keyP4, [],
    rfl, rfl, rfl, rfl, rfl, .inr ⟨rfl, keyP4, rfl, rfl⟩⟩

/-- CLOSE 70000 masked with no draw ready (P3): hypotheses of `StepRefusesCommand`. -/
theorem witness_stepRefuses :
    ∃ (s : State) (c : Command), s.takeInputs.env.resetLine = false ∧ s.takeInputs.enc.phase = .idle ∧
      s.takeInputs.env.cmd = c :: [] ∧ s.takeInputs.env.keys = [] ∧
      resolve Config.maxlen c.cw0 c.cw1 = .error .badCloseCode :=
  ⟨waiting [⟨0x000111700000004B, 0, []⟩] [], ⟨0x000111700000004B, 0, []⟩, rfl, rfl, rfl, rfl, rfl⟩

/-- What the statements about the six commands ask of the state: idle, a descriptor presented, a draw where masked. -/
def Ready (masked : Bool) (key : Option Key) (keys : List Key) (s : State) : Prop :=
  s.enc.phase = .idle ∧ (∃ c rest, s.env.cmd = c :: rest) ∧ Draws masked s.env.keys key keys

theorem ready_masked : Ready true (some keyP4) [] (waiting [⟨0xC, 7, []⟩] [keyP4]) :=
  ⟨rfl, ⟨_, _, rfl⟩, .inr ⟨rfl, keyP4, rfl, rfl⟩⟩
theorem ready_unmasked : Ready false none [] (waiting [⟨0x4, 7, []⟩] []) := ⟨rfl, ⟨_, _, rfl⟩, .inl ⟨rfl, rfl, rfl⟩⟩

/-- `SynthAccepted`: the last opcode of its list, and the largest length that every instance takes. -/
theorem witness_synthAccepted :
    ∃ (s : State) (opc : BitVec 4) (len : Word), Ready true (some keyP4) [] s ∧
      (opc = 0 ∨ opc = 1 ∨ opc = 2 ∨ opc = 8 ∨ opc = 9 ∨ opc = 10) ∧ len.toNat ≤ Config.maxlen :=
  ⟨_, 10, 0xFFFFFFFF, ready_masked, by decide, small_le_maxlen (by decide)⟩
/-- `TextAccepted`, `BinaryAccepted` and `PongAccepted`, masked and unmasked. -/
theorem witness_textBinaryPongAccepted :
    ∃ (s t : State) (len : Word), Ready true (some keyP4) [] s ∧ Ready false none [] t ∧ len.toNat ≤ Config.maxlen :=
  ⟨_, _, 0xFFFFFFFF, ready_masked, ready_unmasked, small_le_maxlen (by decide)⟩
theorem witness_closeWithCodeAccepted :
    ∃ (s : State) (code : BitVec 32) (len : Word), Ready true (some keyP4) [] s ∧ code.toNat ≤ 65535 ∧
      code.toNat ≠ 1005 ∧ 2 + len.toNat ≤ Config.maxlen :=
  ⟨_, 65535, 0xFFFFFFFD, ready_masked, by decide, by decide, small_le_maxlen (by decide)⟩
theorem witness_closeEmptyAccepted :
    ∃ (s : State) (code code' : Option (BitVec 32)), Ready false none [] s ∧ (code = none ∨ code = some 1005) ∧
      (code' = none ∨ code' = some 1005) ∧ code ≠ code' :=
  ⟨_, some 1005, none, ready_unmasked, .inr rfl, .inl rfl, by decide⟩
theorem witness_pingAccepted : ∃ s t : State, Ready true (some keyP4) [] s ∧ Ready false none [] t :=
  ⟨_, _, ready_masked, ready_unmasked⟩

/-- `ReservedOpcodeRefused` and `UnrepresentableCloseCodeRefused`, with no draw ready. -/
theorem witness_valueRefused :
    ∃ (s : State) (opc : BitVec 4) (code : BitVec 32) (c : Command), s.enc.phase = .idle ∧ s.env.cmd = c :: [] ∧
      opc.toNat ∈ [3, 4, 5, 6, 7, 11, 12, 13, 14, 15] ∧ 65535 < code.toNat :=
  ⟨waiting [⟨0xF18, 0, []⟩] [], 15, 65536, ⟨0xF18, 0, []⟩, rfl, rfl, by decide, by decide⟩
/-- Both clauses of `OversizedPayloadRefused`. -/
theorem witness_oversizedPayloadRefused :
    ∃ (s : State) (opc : BitVec 4) (code : BitVec 32) (len : Word) (c : Command), s.enc.phase = .idle ∧
      s.env.cmd = c :: [] ∧ Config.maxlen < len.toNat ∧ validOpcode opc = true ∧
      Config.maxlen < 2 + len.toNat ∧ code.toNat ≤ 65535 ∧ code.toNat ≠ 1005 :=
  ⟨waiting [⟨0x1, 0x8000000000000000, []⟩] [], 10, 1000, 0x8000000000000000, ⟨0x1, 0x8000000000000000, []⟩, rfl, rfl,
    maxlen_lt_large (by decide), by decide, maxlen_lt_large (by decide), by decide, by decide⟩

/-- Both bounds of `MAXLEN`, and a RESET. -/
theorem witness_errorPriority :
    ∃ m : Nat, 2 ^ 32 - 1 ≤ m ∧ m ≤ 2 ^ 63 - 1 ∧ resolve m 0x0000000000000300 0x8000000000000000 = .error .badOpcode :=
  ⟨2 ^ 32 - 1, by decide, by decide, rfl⟩
/-- The four conditions `ErrorPriority` names after the reserved bits, each alone (section 2.7). -/
theorem witness_errorPriority_causes :
    (kindOf 0x7).toNat = 7 ∧
    (kindOf 0xF18 = 0 ∧ (opcOf 0xF18).toNat ∈ [3, 4, 5, 6, 7, 11, 12, 13, 14, 15]) ∧
    (kindOf 0x0001000000000043 = 3 ∧ codevOf 0x0001000000000043 = true ∧ 65535 < (codeOf 0x0001000000000043).toNat) ∧
    (kindOf 0xD = 5 ∧ 2 ^ 63 - 1 < (0xFFFFFFFFFFFFFFFF : Word).toNat) ∧
    (kindOf 0x000003E800000043 = 3 ∧ (codeOf 0x000003E800000043).toNat ≠ 1005 ∧
      2 ^ 63 - 1 < 2 + (0x7FFFFFFFFFFFFFFE : Word).toNat) := by decide
/-- The reset signal, asserted before this step with a descriptor presented (`ErrorPriority`, `ResetStep`). -/
theorem witness_resetStep :
    ∃ (s : State) (c : Command), s.takeInputs.env.resetLine = true ∧ s.takeInputs.env.cmd = [c] ∧ s.enc.busy = true :=
  ⟨{ flightP4 .pay 5 0 with env := { Env.initial with cmd := [⟨0x4, 0, []⟩], inputs := [[.resetLine true]] } }, ⟨0x4, 0, []⟩,
    by decide, by decide, by decide⟩
theorem witness_nothingBeforeFirstReset :
    ∃ s t : State, s.takeInputs.enc.phase = .noValue ∧ s.takeInputs.env.resetLine = false ∧
      t.takeInputs.enc.phase = .noValue ∧ t.takeInputs.env.resetLine = true :=
  ⟨State.powerOn (encP4 .hdr 0 0), { State.powerOn Encoder.reset with env := { Env.initial with resetLine := true } },
    by decide, by decide, by decide, by decide⟩

/-! #### Emitting, holds -/

/-- `EmitHdrStep` at the last header byte, with payload to follow and without. -/
theorem witness_emitHdrStep :
    ∃ (s : State) (b : Byte), s.takeInputs.env.resetLine = false ∧ s.takeInputs.enc.phase = .hdr ∧
      s.takeInputs.env.sinkReady = true ∧ s.takeInputs.enc.hidx.toNat < s.takeInputs.enc.hlen.toNat ∧
      s.takeInputs.enc.hbuf[s.takeInputs.enc.hidx.toNat]? = some b :=
  ⟨flightP4 .hdr 5 0, 0x3D, by decide, by decide, by decide, by decide, by decide⟩
/-- The conditions inside `HdrEmitted` and `PayEmitted`, each at a boundary. -/
theorem witness_emitted_ends :
    ((flightP4 .hdr 4 0).enc.hidx.toNat + 1 < (flightP4 .hdr 4 0).enc.hlen.toNat) ∧
    ((flightP4 .hdr 5 0).enc.hlen.toNat ≤ (flightP4 .hdr 5 0).enc.hidx.toNat + 1 ∧ 0 < (flightP4 .hdr 5 0).enc.qPl.toNat) ∧
    (State.reset.enc.hlen.toNat ≤ State.reset.enc.hidx.toNat + 1 ∧ State.reset.enc.qPl.toNat = 0) ∧
    ((flightP4 .pay 5 0).enc.pidx.toNat + 1 < (flightP4 .pay 5 0).enc.qPl.toNat) ∧
    ((flightP4 .pay 5 1).enc.qPl.toNat ≤ (flightP4 .pay 5 1).enc.pidx.toNat + 1) := by decide
theorem witness_emitPayStep_masked :
    ∃ (s : State) (b : Byte) (key : Key), s.takeInputs.env.resetLine = false ∧ s.takeInputs.enc.phase = .pay ∧
      s.takeInputs.env.sinkReady = true ∧ s.takeInputs.payByte s.takeInputs.enc.pidx.toNat = .byte b ∧
      s.takeInputs.enc.qMask = true ∧ s.takeInputs.enc.k = some key :=
  ⟨flightP4 .pay 5 1, 0x69, keyP4, by decide, by decide, by decide, by decide, by decide, by decide⟩
theorem witness_emitPayStep_unmasked :
    ∃ (s : State) (b : Byte), s.takeInputs.env.resetLine = false ∧ s.takeInputs.enc.phase = .pay ∧
      s.takeInputs.env.sinkReady = true ∧ s.takeInputs.payByte s.takeInputs.enc.pidx.toNat = .byte b ∧
      s.takeInputs.enc.qMask = false :=
  ⟨flightClose 2, 0x62, by decide, by decide, by decide, by decide, by decide⟩
/-- `PayloadByteSource`: no prefix, and index 2, the first after a prefix. -/
theorem witness_payloadByteSource :
    ((flightP4 .pay 5 0).enc.qPfxn = 0 ∧ srcRead (flightP4 .pay 5 0).env 1 = some 0x69) ∧
    ((flightClose 2).enc.qPfxn = 2 ∧ srcRead (flightClose 2).env (2 - 2) = some 0x62) := by decide

/-- The five reasons to wait (`HeldStepChangesNothing`). -/
theorem witness_held_noCommand : Held State.reset.takeInputs := ⟨rfl, .inl ⟨rfl, rfl⟩⟩
theorem witness_held_noKey : Held (waiting [⟨0xC, 0, []⟩] []).takeInputs :=
  ⟨rfl, .inr (.inl ⟨rfl, rfl, ⟨0xC, 0, []⟩, [], ⟨true, 9, true, [], 0⟩, rfl, rfl, rfl⟩)⟩
theorem witness_held_sink_hdr :
    Held { flightP4 .hdr 0 0 with env := { Env.initial with sinkReady := false } } := ⟨rfl, .inr (.inr (.inl ⟨rfl, rfl⟩))⟩
theorem witness_held_sink_pay :
    Held { flightP4 .pay 5 0 with env := { Env.initial with sinkReady := false } } :=
  ⟨rfl, .inr (.inr (.inr (.inl ⟨rfl, rfl⟩)))⟩
theorem witness_held_source :
    Held { flightP4 .pay 5 1 with env := { Env.initial with pin := [(0, 0x68)] } } :=
  ⟨rfl, .inr (.inr (.inr (.inr ⟨rfl, by decide, by decide⟩)))⟩

/-! #### Steps from states of the invariant -/

/-- A step in the header (`StepClosure`, `InvKeptByStep`, `InvNeverStops`, `PinStaysCanonical`, `BusyDescriptorWaits`,
`EmittedInIndexOrder`, `KeyStableInFlight`, `PayloadInputNeverWritten`). -/
theorem witness_step_in_flight :
    ∃ s t : State, Inv s ∧ s.takeInputs.env.resetLine = false ∧ s.takeInputs.enc.phase = .hdr ∧
      s.takeInputs.enc.busy = true ∧ Memory.wf s.env.pin = true ∧ s.enc.busy = true ∧ s.enc.qMask = true ∧
      s.enc.phase ≠ .pay ∧ stepNow s = .next t ∧ step s = .next t ∧ t.enc.busy = true :=
  ⟨flightP4 .hdr 5 0, _, flightP4_hdr_inv, rfl, rfl, rfl, rfl, rfl, rfl, by decide, rfl, rfl, rfl⟩
/-- The step that puts out the last byte (`BusyFallsWithLastByte`), and one that does not. -/
theorem witness_busyFalls :
    ∃ (s t : State) (b : Byte), Inv s ∧ step s = .next t ∧
      t.env.fout = s.takeInputs.env.fout ++ [(framePos s.takeInputs.enc, b)] ∧ t.enc.busy = false :=
  ⟨flightP4 .pay 5 1, _, 0x93, flightP4_pay_inv, rfl, rfl, rfl⟩
theorem witness_busyStays :
    ∃ (s t : State) (b : Byte), Inv s ∧ step s = .next t ∧
      t.env.fout = s.takeInputs.env.fout ++ [(framePos s.takeInputs.enc, b)] ∧ t.enc.busy = true :=
  ⟨flightP4 .hdr 5 0, _, 0x3D, flightP4_hdr_inv, rfl, rfl, rfl⟩
/-- An acceptance that draws a key (`KeyDrawnOncePerMaskedAccept`, `PayloadInputNeverWritten`). -/
theorem witness_step_draws :
    ∃ s t : State, Inv s ∧ step s = .next t ∧ s.takeInputs.env.keys = keyP4 :: t.env.keys ∧ t.enc.phase = .hdr :=
  ⟨waiting [⟨0xC, 0, []⟩] [keyP4], _, waiting_inv _ _, rfl, rfl, rfl⟩
/-- `ReachableStatesMeetInv`, two steps on. -/
theorem witness_reachable :
    ∃ (v : Env) (t : State), Memory.wf v.pin = true ∧ Host.Core.run core 2 ⟨State.reset.enc, v⟩ = .next t ∧
      t.enc.phase = .hdr :=
  ⟨(waiting [⟨0xC, 0, []⟩] [keyP4]).env, _, rfl, rfl, rfl⟩
/-- `NoValueRegistersUnread`: two machines that differ in a register without a value. -/
theorem witness_sameValues :
    ∃ s t : State, SameValues s.enc t.enc ∧ s.env = t.env ∧ s.enc ≠ t.enc :=
  ⟨State.reset, { State.reset with enc := { Encoder.reset with qOpc := 9 } },
    { phase := rfl, k := rfl, status := rfl, detail := rfl, rHlen := rfl, rFlen := rfl,
      flight := fun h => absurd h (by decide) }, rfl, by decide⟩
theorem witness_sameValues_inFlight :
    ∃ s t : State, SameValues s.enc t.enc ∧ s.env = t.env ∧ s.enc ≠ t.enc ∧ s.enc.phase = .hdr :=
  ⟨flightP4 .hdr 5 0, { flightP4 .hdr 5 0 with enc := { encP4 .hdr 5 0 with qPfx1 := 1 } },
    { phase := rfl, k := rfl, status := rfl, detail := rfl, rHlen := rfl, rFlen := rfl,
      flight := fun _ => ⟨rfl, rfl, rfl, rfl, rfl, rfl, rfl, fun j hj => absurd hj (Nat.not_lt_zero j), rfl, fun _ => rfl⟩ },
    rfl, by decide, rfl⟩

/-! #### Runs and frames -/

theorem witness_runEmitsFrame :
    ∃ (s : State) (c : Command) (r : Request) (key : Option Key) (keys : List Key),
      s.enc.phase = .idle ∧ Undisturbed s.env ∧ s.env.cmd = c :: [] ∧ resolve Config.maxlen c.cw0 c.cw1 = .ok r ∧
      Draws r.mask s.env.keys key keys ∧ r.n ≤ c.src.length :=
  ⟨waiting [⟨0x000003E80000004B, 3, [0x62, 0x79, 0x65]⟩] [keyP4], ⟨0x000003E80000004B, 3, [0x62, 0x79, 0x65]⟩,
    ⟨true, 8, true, [0x03, 0xE8], 3⟩, some keyP4, [], rfl, ⟨rfl, rfl, rfl⟩, rfl, rfl, .inr ⟨rfl, keyP4, rfl, rfl⟩,
    by decide⟩
theorem witness_runRefusesCommand :
    ∃ (s : State) (c : Command), s.enc.phase = .idle ∧ Undisturbed s.env ∧ s.env.cmd = c :: [] ∧
      frame Config.maxlen c.cw0 c.cw1 c.src keyP4 = .error .badOpcode :=
  ⟨waiting [⟨0xB10, 0, []⟩] [], ⟨0xB10, 0, []⟩, rfl, ⟨rfl, rfl, rfl⟩, rfl, rfl⟩
/-- `FramePrefixKept`, between the two payload bytes of P4. -/
theorem witness_framePrefixKept :
    ∃ (s t : State) (base : List Host.Cell) (p : List Byte),
      Inv s ∧ s.enc.busy = true ∧ s.takeInputs.env.resetLine = false ∧ p.length = s.enc.qPl.toNat ∧
      (∀ (i : Nat) (b : Byte), s.takeInputs.payByte i = .byte b → i < p.length → p[i]? = some b) ∧
      s.takeInputs.env.fout =
        base ++ cellsFrom 0 ((frameOf s.enc.qFin s.enc.qOpc s.enc.k p).take (framePos s.enc)) ∧
      step s = .next t := by
  refine ⟨{ flightP4 .hdr 0 0 with env := { Env.initial with pin := [(0, 0x68), (1, 0x69)], fout := [(9, 1)] } }, _,
    [(9, 1)], [0x68, 0x69], ?_, rfl, rfl, rfl, fun i b h hi => ?_, rfl, rfl⟩
  · exact { phase := by decide, idle := fun h => absurd h (by decide), flight := fun _ => flightP4_inFlight ..,
            hdr := fun _ => by decide, pay := fun h => absurd h (by decide), res := flightP4_res .., pin := rfl }
  · match i, hi with
    | 0, _ => revert b; decide
    | 1, _ => revert b; decide

/-- The regimes of `HeaderByte1` and `ExtendedLengthExact` at their ends. -/
theorem witness_regimes : 125 < 126 ∧ (126 ≤ 126 ∧ 126 < 65536) ∧ (126 ≤ 65535 ∧ 65535 < 65536) ∧
    (65536 ≤ 65536 ∧ 65536 < 2 ^ 64) := by decide
theorem witness_extendedLengthHalves :
    ∃ (n : BitVec 64) (hi lo : BitVec 32), hi.toNat = n.toNat / 2 ^ 32 ∧ lo.toNat = n.toNat % 2 ^ 32 :=
  ⟨0x20000000000001, 0x200000, 1, by decide, by decide⟩
/-- A longer header than the encoder's, which announces the same length (section 2.2, "never produced": `7E 00 7D`). -/
theorem witness_headerMinimal : readLengths [0x82, 0x7E, 0x00, 0x7D] = some (4, 125) := by decide
/-- A header cut inside its extended length, or before byte 1, has no reading (log entry 19). -/
theorem test_cut_header_unread :
    readLengths [0x82, 0x7E, 0x00] = none ∧ readLengths [0x82, 0xFF, 0, 0, 0, 0, 0, 1, 0] = none ∧
      readLengths [0x82] = none := by decide
theorem witness_headerMinimal_regimes : len7 126 = 126 ∧ len7 65536 = 127 := by decide
theorem witness_extendedLengthTopBitClear : ∃ pl : Nat, 65536 ≤ pl ∧ pl ≤ Config.maxlen :=
  ⟨2 ^ 32 - 1, by decide, small_le_maxlen (by decide)⟩
theorem witness_keyEndsHeader : ∃ j : Nat, j < 4 := ⟨3, by decide⟩
theorem witness_headerSelfDelimiting : ∃ pl : Nat, pl < 2 ^ 64 ∧ 65536 ≤ pl := ⟨2 ^ 64 - 1, by decide⟩
theorem witness_closeFrameLayout :
    ∃ (m : Nat) (code : BitVec 32) (len : Word) (src : List Byte), 2 ^ 32 - 1 ≤ m ∧ m ≤ 2 ^ 63 - 1 ∧
      code.toNat ≤ 65535 ∧ code.toNat ≠ 1005 ∧ src.length = len.toNat ∧ 2 + len.toNat ≤ m :=
  ⟨2 ^ 63 - 1, 1000, 3, [0x62, 0x79, 0x65], by decide, by decide, by decide, by decide, by decide, by decide⟩
theorem witness_buildersExpandToSynth :
    ∃ (code : BitVec 32) (len len2 : Word), code.toNat ≤ 65535 ∧ code.toNat ≠ 1005 ∧ len2.toNat = 2 + len.toNat :=
  ⟨1000, 3, 5, by decide, by decide, by decide⟩

end Sys2Proof.Tests
end

section
/-!
PROOFS. The scope of the model (spec 00_scope.md): the bounds of `MAXLEN` (R6), and that a step runs the command the
presented descriptor decodes to.
-/

namespace Sys2Proof.Machine

/-- The command of the first descriptor on `CMD` is the presented one (R51, R69). -/
theorem presented_cons {s : State} {c : Command} {rest : List Command} (hc : s.env.cmd = c :: rest) :
    s.presented = some (decode c.cw0 c.cw1) := by
  simp [State.presented, hc]

/-- In `IDLE` the presented command is run by `exec`. -/
theorem stepIdle_ok {s : State} {i : Instr} (hi : s.presented = some (.ok i)) : stepIdle s = exec i s := by
  simp [stepIdle, hi]

/-- Settles O5: reset released and `IDLE` enable `stepIdle`, which takes the first descriptor and runs its command. -/
theorem stepRunsDecoded : Obligations.StepRunsDecoded := by
  intro s c rest i hline hphase hcmd hdecode
  have hpresented : s.takeInputs.presented = some (.ok i) := by rw [presented_cons hcmd, hdecode]
  calc step s
    _ = stepIdle s.takeInputs := step_idle hline (takeInputs_enc s ▸ hphase)
    _ = exec i s.takeInputs := stepIdle_ok hpresented

/-- Settles O58: the two bounds hold of every value of the open part of `MAXLEN`. -/
theorem maxlenBounds : Obligations.MaxlenBounds :=
  ⟨minMaxlen_le_maxlen, maxlen_le_maxMaxlen⟩

end Sys2Proof.Machine
end

section
/-!
PROOFS. The encoder's state (spec 10_state.md): what a step can do, the invariant of R33 along every step and run, that no
step stops from it (R31, R190), that no step reads a register without a value (R31), and what reset and `RES` hold.
-/

namespace Sys2Proof.Machine

/-! ### The step in `IDLE` is an acceptance of what `Resolve` makes of the descriptor (R159, R171) -/

/-- A descriptor that passes the four tests on its words is only tested for its length (R159, last line). -/
theorem resolve_emitFrame {m : Nat} {cw0 cw1 : Word} (hrsvd : rsvdSet cw0 = false) (hkind : (kindOf cw0).toNat < 6)
    (hopc : (kindOf cw0).toNat = 0 → validOpcode (opcOf cw0) = true)
    (hcode : (kindOf cw0).toNat = 3 → codevOf cw0 = true → (codeOf cw0).toNat ≤ 65535) :
    resolve m cw0 cw1 = emitFrame m (resolveArgs cw0 cw1).1 (resolveArgs cw0 cw1).2.1 (maskedOf cw0)
      (resolveArgs cw0 cw1).2.2.1 (resolveArgs cw0 cw1).2.2.2 := by
  have hopc' : ¬((kindOf cw0).toNat = 0 ∧ validOpcode (opcOf cw0) = false) := fun ⟨h0, hv⟩ => by simp [hopc h0] at hv
  have hcode' : ¬((kindOf cw0).toNat = 3 ∧ codevOf cw0 ∧ 65535 < (codeOf cw0).toNat) :=
    fun ⟨h3, hv, hlt⟩ => absurd (hcode h3 hv) (by omega)
  rw [resolve, if_neg (by simp [hrsvd]), if_neg (by omega), if_neg hopc', if_neg hcode']
  rfl

/-- `Resolve` refuses what the decoder refuses, with the same cause (R88, R191, R192). -/
theorem resolve_of_decode_error {m : Nat} {cw0 cw1 : Word} {err : DecodeError} (h : decode cw0 cw1 = .error err) :
    resolve m cw0 cw1 = .error (decodeCause err) := by
  unfold decode at h
  split at h
  next hrsvd => cases h; simp [resolve, hrsvd, decodeCause]
  next hrsvd =>
    split at h <;> cases h
    next h0 h1 h2 h3 h4 h5 =>
      have hkind : 6 ≤ (kindOf cw0).toNat := by simp only [imp_false] at h0 h1 h2 h3 h4 h5; omega
      simp [resolve, hrsvd, hkind, decodeCause]

/-- The kinds that have no value check of their own: TEXT, BINARY, PING and PONG. -/
theorem resolve_unchecked {m : Nat} {cw0 cw1 : Word} (hrsvd : rsvdSet cw0 = false) (hkind : (kindOf cw0).toNat < 6)
    (hsynth : (kindOf cw0).toNat ≠ 0) (hclose : (kindOf cw0).toNat ≠ 3) :
    resolve m cw0 cw1 = emitFrame m (resolveArgs cw0 cw1).1 (resolveArgs cw0 cw1).2.1 (maskedOf cw0)
      (resolveArgs cw0 cw1).2.2.1 (resolveArgs cw0 cw1).2.2.2 :=
  resolve_emitFrame hrsvd hkind (absurd · hsynth) (absurd · hclose)

theorem execSynth_eq_accept {cw0 : Word} (cw1 : Word) (hrsvd : rsvdSet cw0 = false) (hkind : (kindOf cw0).toNat = 0)
    (s : State) : execSynth (finOf cw0) (maskedOf cw0) (opcOf cw0) cw1 s = accept (resolve Config.maxlen cw0 cw1) s := by
  by_cases hopc : validOpcode (opcOf cw0)
  · rw [resolve_emitFrame hrsvd (by omega) (fun _ => hopc) (by omega)]
    simp [execSynth, hopc, resolveArgs, hkind]
  · simp [execSynth, resolve, hrsvd, hkind, hopc]

theorem execClose_eq_accept {cw0 : Word} (cw1 : Word) (hrsvd : rsvdSet cw0 = false) (hkind : (kindOf cw0).toNat = 3)
    (s : State) :
    execClose (maskedOf cw0) (if codevOf cw0 then some (codeOf cw0) else none) cw1 s =
      accept (resolve Config.maxlen cw0 cw1) s := by
  cases hcodev : codevOf cw0 with
  | false =>
    rw [resolve_emitFrame hrsvd (by omega) (by omega) (by simp [hcodev])]
    simp [execClose, resolveArgs, hkind, closePayload, hcodev]
  | true =>
    by_cases hcode : (codeOf cw0).toNat ≤ 65535
    · rw [resolve_emitFrame hrsvd (by omega) (by omega) (fun _ _ => hcode)]
      by_cases h1005 : (codeOf cw0).toNat = 1005 <;>
        simp [execClose, representableCode, hcode, resolveArgs, hkind, closePayload, hcodev, h1005]
    · simp [execClose, representableCode, hcode, resolve, hrsvd, hkind, hcodev, Nat.lt_of_not_le hcode]

/-- A decoded command's own meaning accepts what `Resolve` makes of the descriptor (R150, R159). -/
theorem exec_of_decode {cw0 cw1 : Word} {i : Instr} (h : decode cw0 cw1 = .ok i) (s : State) :
    exec i s = accept (resolve Config.maxlen cw0 cw1) s := by
  unfold decode at h
  split at h
  next => cases h
  next hset =>
    have hrsvd : rsvdSet cw0 = false := by simpa using hset
    split at h <;> cases h
    next hkind => exact execSynth_eq_accept cw1 hrsvd hkind s
    next hkind => simp [exec, execText, resolve_unchecked, hrsvd, resolveArgs, hkind]
    next hkind => simp [exec, execBinary, resolve_unchecked, hrsvd, resolveArgs, hkind]
    next hkind => exact execClose_eq_accept cw1 hrsvd hkind s
    next hkind => simp [exec, execPing, resolve_unchecked, hrsvd, resolveArgs, hkind]
    next hkind => simp [exec, execPong, resolve_unchecked, hrsvd, resolveArgs, hkind]

/-- With a descriptor presented, the step in `IDLE` accepts what `Resolve` makes of it (R171, R172). -/
theorem stepIdle_cons {s : State} {c : Command} {rest : List Command} (hc : s.env.cmd = c :: rest) :
    stepIdle s = accept (resolve Config.maxlen c.cw0 c.cw1) s := by
  cases hd : decode c.cw0 c.cw1 with
  | ok i => rw [stepIdle_ok (by rw [presented_cons hc, hd]), exec_of_decode hd]
  | error err => simp [stepIdle, presented_cons hc, hd, resolve_of_decode_error hd]

theorem stepIdle_nil {s : State} (hc : s.env.cmd = []) : stepIdle s = .next s := by
  simp [stepIdle, State.presented, hc]

/-! ### The invariant: what each operation of the machine makes of it (R33) -/

/-- In `IDLE` the invariant asks three things: no key is held, `RES` is legal, `PIN` is canonical. -/
theorem inv_of_idle {s : State} (hphase : s.enc.phase = .idle) (hkv : s.enc.kv = false) (hres : LegalRes s.enc)
    (hpin : Memory.wf s.env.pin = true) : Inv s where
  phase  := by simp [hphase]
  idle   := fun _ => hkv
  flight := by simp [hphase]
  hdr    := by simp [hphase]
  pay    := by simp [hphase]
  res    := hres
  pin    := hpin

/-- The registers after reset meet the invariant in every environment whose `PIN` is canonical. -/
theorem inv_reset {v : Env} (hpin : Memory.wf v.pin = true) : Inv ⟨Encoder.reset, v⟩ :=
  inv_of_idle rfl rfl (.inl ⟨rfl, rfl, .inl ⟨rfl, rfl⟩⟩) hpin

/-- The environment's moves write no register and keep `PIN` canonical, so they keep the invariant. -/
theorem inv_takeInputs {s : State} (h : Inv s) : Inv s.takeInputs := by
  have henc := takeInputs_enc s
  exact ⟨henc ▸ h.phase, henc ▸ h.idle, henc ▸ h.flight, henc ▸ h.hdr, henc ▸ h.pay, henc ▸ h.res,
    takeInputs_pin_wf s h.pin⟩

theorem inv_takeError {s : State} (h : Inv s) (hphase : s.enc.phase = .idle) (cause : Cause) (rest : List Command) :
    Inv (s.takeError cause rest) :=
  inv_of_idle hphase (h.idle hphase) (.inr ⟨cause, rfl, rfl, rfl, rfl⟩) h.pin

/-- Lengths up to `MAXLEN`, with a header in front of them, fit 64 bits (R26). -/
theorem toNat_ofNat_of_le_maxlen {k n : Nat} (hk : k ≤ 14) (hn : n ≤ Config.maxlen) :
    (BitVec.ofNat 64 (k + n)).toNat = k + n := by
  have := maxlen_lt_two_pow
  simp only [BitVec.toNat_ofNat]; omega

/-- What every resolved request has, with its lengths as numbers (R159). -/
theorem resolve_ok_lengths {cw0 cw1 : Word} {r : Request} (hr : resolve Config.maxlen cw0 cw1 = .ok r) :
    (r.pfx.length = 0 ∨ r.pfx.length = 2) ∧ r.pl ≤ Config.maxlen := by
  obtain ⟨-, hpfx, hpl, -⟩ := resolve_ok hr
  refine ⟨?_, (exceeds_maxlen_false_iff _).mp hpl⟩
  obtain hpfx | ⟨a, b, hpfx⟩ := hpfx <;> simp [hpfx]

section
variable {cw0 cw1 : Word} {r : Request} {key : Option Key} {e : Encoder}

theorem startFrame_qPl_toNat (hr : resolve Config.maxlen cw0 cw1 = .ok r) : (e.startFrame r key).qPl.toNat = r.pl := by
  simpa using toNat_ofNat_of_le_maxlen (Nat.zero_le 14) (resolve_ok_lengths hr).2

theorem startFrame_rFlen_toNat (hr : resolve Config.maxlen cw0 cw1 = .ok r) :
    (e.startFrame r key).rFlen.toNat = hLen r.mask r.pl + r.pl :=
  toNat_ofNat_of_le_maxlen (hLen_le ..) (resolve_ok_lengths hr).2

theorem startFrame_qPfxn_toNat (hr : resolve Config.maxlen cw0 cw1 = .ok r) :
    (e.startFrame r key).qPfxn.toNat = r.pfx.length := by
  obtain hlen | hlen := (resolve_ok_lengths hr).1 <;> simp [hlen]

theorem startFrame_hlen_toNat : (e.startFrame r key).hlen.toNat = hLen r.mask r.pl := toNat_hLen ..

/-- The registers an accepted request writes describe a frame in flight: every field R33 asks about is computed from the
request, and `MAXLEN` bounds the lengths so that none of them wraps (R26). -/
theorem frameInFlight_startFrame (hr : resolve Config.maxlen cw0 cw1 = .ok r) (hkey : key.isSome = r.mask) :
    FrameInFlight (e.startFrame r key) where
  key     := hkey
  status  := rfl
  rHlen   := rfl
  rFlen   := by rw [startFrame_rFlen_toNat hr, startFrame_hlen_toNat, startFrame_qPl_toNat hr]
  hlen    := startFrame_hlen_toNat ▸ hLen_cases ..
  hbuf    := by rw [startFrame_qPl_toNat hr]; rfl
  hbufLen := by rw [startFrame_hlen_toNat, startFrame_hbuf, header_length_hLen, hkey]
  opc     := (resolve_ok hr).1
  pl      := startFrame_qPl_toNat hr ▸ (resolve_ok_lengths hr).2
  pfxn    := startFrame_qPfxn_toNat hr ▸ (resolve_ok_lengths hr).1
  pfxnLe  := by rw [startFrame_qPfxn_toNat hr, startFrame_qPl_toNat hr]; exact Nat.le_add_right ..

/-- The result of an acceptance is one of the legal contents of `RES` (R26, R142). -/
theorem legalRes_startFrame (hr : resolve Config.maxlen cw0 cw1 = .ok r) : LegalRes (e.startFrame r key) := by
  have hrHlen : (e.startFrame r key).rHlen.toNat = hLen r.mask r.pl := toNat_hLen ..
  refine .inl ⟨rfl, rfl, .inr ?_⟩
  rw [hrHlen, startFrame_rFlen_toNat hr]
  exact ⟨hLen_cases .., Nat.le_add_right .., Nat.add_le_add (hLen_le ..) (resolve_ok_lengths hr).2⟩

end

/-- An acceptance establishes the invariant, whatever the registers held before (R171). -/
theorem inv_startFrame {cw0 cw1 : Word} {r : Request} {key : Option Key} (hr : resolve Config.maxlen cw0 cw1 = .ok r)
    (hkey : key.isSome = r.mask) (c : Command) (rest : List Command) (keys : List Key) (s : State) :
    Inv (s.startFrame r key c rest keys) where
  phase  := by simp
  idle   := by simp
  flight := fun _ => frameInFlight_startFrame hr hkey
  hdr    := fun _ => by
    have := two_le_hLen r.mask r.pl
    rw [startFrame_enc, startFrame_hlen_toNat]
    exact ⟨show 0 < _ by omega, rfl⟩
  pay    := by simp
  res    := legalRes_startFrame hr
  pin    := memory_wf_ofBytes _

/-- Completing a frame in flight leads to `IDLE` with the key given up (R176). -/
theorem inv_complete {s t : State} (h : Inv s) (henc : t.enc = s.enc.complete) (hpin : t.env.pin = s.env.pin) : Inv t :=
  inv_of_idle (by simp [henc]) (by simp [henc, Encoder.kv]) (henc ▸ h.res) (hpin ▸ h.pin)

/-- The indexes and the phase take no part in the description of the frame in flight. -/
theorem frameInFlight_reindex {e : Encoder} (h : FrameInFlight e) (phase : Phase) (hidx : BitVec 4) (pidx : BitVec 64) :
    FrameInFlight { e with phase, hidx, pidx } := { h with }

/-- Counting an index up within a bound that its register can hold does not wrap. -/
theorem toNat_succ_of_lt {w : Nat} {x y : BitVec w} (h : x.toNat + 1 < y.toNat) : (x + 1).toNat = x.toNat + 1 := by
  have hfits := Nat.mod_eq_of_lt (Nat.lt_trans h y.isLt)
  simpa [BitVec.toNat_add] using hfits

theorem inv_afterHdr {s t : State} (h : Inv s) (hphase : s.enc.phase = .hdr) (henc : t.enc = s.enc.afterHdr)
    (hpin : t.env.pin = s.env.pin) : Inv t := by
  have hflight := h.flight (.inl hphase)
  obtain ⟨-, hpidx⟩ := h.hdr hphase
  obtain ⟨hlt, hafter⟩ | ⟨-, hpl, hafter⟩ | ⟨-, -, hafter⟩ := afterHdr_cases s.enc <;> rw [hafter] at henc
  case inl =>
    constructor <;> simp only [henc, hphase, hpin]
    case flight => exact fun _ => frameInFlight_reindex hflight _ _ _
    case hdr => exact fun _ => ⟨toNat_succ_of_lt hlt ▸ hlt, hpidx⟩
    case res => exact h.res
    case pin => exact h.pin
    all_goals simp
  case inr.inl =>
    constructor <;> simp only [henc, hpin]
    case flight => exact fun _ => frameInFlight_reindex hflight _ _ _
    case pay => simpa [hpidx] using hpl
    case res => exact h.res
    case pin => exact h.pin
    all_goals simp
  case inr.inr => exact inv_complete h henc hpin

theorem inv_afterPay {s t : State} (h : Inv s) (hphase : s.enc.phase = .pay) (henc : t.enc = s.enc.afterPay)
    (hpin : t.env.pin = s.env.pin) : Inv t := by
  obtain ⟨hlt, hafter⟩ | ⟨-, hafter⟩ := afterPay_cases s.enc <;> rw [hafter] at henc
  case inl =>
    constructor <;> simp only [henc, hphase, hpin]
    case flight => exact fun _ => frameInFlight_reindex (h.flight (.inr hphase)) _ _ _
    case pay => exact fun _ => toNat_succ_of_lt hlt ▸ hlt
    case res => exact h.res
    case pin => exact h.pin
    all_goals simp
  case inr => exact inv_complete h henc hpin

/-! ### What a step can do (R170) -/

/-- All that the step in `IDLE` can do: a hold with its reason, an error, or an acceptance with its key draw. -/
theorem stepIdle_next {s t : State} (hphase : s.enc.phase = .idle) (h : stepIdle s = .next t) :
    (t = s ∧ (s.env.cmd = [] ∨ ∃ c rest r, s.env.cmd = c :: rest ∧ resolve Config.maxlen c.cw0 c.cw1 = .ok r ∧
      r.mask = true ∧ s.env.keys = [])) ∨
    (∃ c rest cause, s.env.cmd = c :: rest ∧ resolve Config.maxlen c.cw0 c.cw1 = .error cause ∧
      t = s.takeError cause rest) ∨
    (∃ c rest r key keys, s.env.cmd = c :: rest ∧ resolve Config.maxlen c.cw0 c.cw1 = .ok r ∧
      Draws r.mask s.env.keys key keys ∧ t = s.startFrame r key c rest keys) := by
  cases hcmd : s.env.cmd with
  | nil =>
    rw [stepIdle_nil hcmd] at h
    exact .inl ⟨(Host.Outcome.next.inj h).symm, .inl rfl⟩
  | cons c rest =>
    rw [stepIdle_cons hcmd] at h
    obtain ⟨hnil, -⟩ | ⟨c', rest', hcons, hcases⟩ := accept_idle hphase h
    · simp [hcmd] at hnil
    obtain ⟨rfl, rfl⟩ := List.cons.inj (hcmd.symm.trans hcons)
    obtain ⟨cause, hr, ht⟩ | ⟨r, hr, hm, hk, ht⟩ | ⟨r, key, keys, hr, hm, hk, ht⟩ | ⟨r, hr, hm, ht⟩ := hcases
    · exact .inr (.inl ⟨c, rest, cause, rfl, hr, ht⟩)
    · exact .inl ⟨ht, .inr ⟨c, rest, r, rfl, hr, hm, hk⟩⟩
    · exact .inr (.inr ⟨c, rest, r, some key, keys, rfl, hr, .inr ⟨hm, key, rfl, hk⟩, ht⟩)
    · exact .inr (.inr ⟨c, rest, r, none, s.env.keys, rfl, hr, .inl ⟨hm, rfl, rfl⟩, ht⟩)

/-- Which step a step that goes on has taken: RESET, or the one its phase enables. -/
theorem step_next {s t : State} (h : step s = .next t) :
    (s.takeInputs.env.resetLine = true ∧ t = s.takeInputs.resetStep) ∨
    (s.takeInputs.env.resetLine = false ∧
      ((s.enc.phase = .idle ∧ stepIdle s.takeInputs = .next t) ∨
       (s.enc.phase = .hdr ∧ emitHdr s.takeInputs = .next t) ∨
       (s.enc.phase = .pay ∧ emitPay s.takeInputs = .next t))) := by
  cases hline : s.takeInputs.env.resetLine with
  | true => exact .inl ⟨rfl, Host.Outcome.next.inj (h.symm.trans (step_reset hline))⟩
  | false =>
    refine .inr ⟨rfl, ?_⟩
    cases hphase : s.enc.phase with
    | noValue => simp [step_noValue hline hphase] at h
    | idle => exact .inl ⟨rfl, step_idle hline hphase ▸ h⟩
    | hdr => exact .inr (.inl ⟨rfl, step_hdr hline hphase ▸ h⟩)
    | pay => exact .inr (.inr ⟨rfl, step_pay hline hphase ▸ h⟩)

/-- A draw hands over a key exactly if the request is masked (R130). -/
theorem draws_isSome {mask : Bool} {keys keys' : List Key} {key : Option Key} (h : Draws mask keys key keys') :
    key.isSome = mask := by
  obtain ⟨rfl, rfl, -⟩ | ⟨rfl, k, rfl, -⟩ := h <;> rfl

/-! ### The invariant along steps and runs -/

theorem inv_stepIdle {s t : State} (h : Inv s) (hphase : s.enc.phase = .idle) (hstep : stepIdle s = .next t) : Inv t := by
  obtain ⟨rfl, -⟩ | ⟨c, rest, cause, -, -, rfl⟩ | ⟨c, rest, r, key, keys, -, hr, hdraw, rfl⟩ := stepIdle_next hphase hstep
  · exact h
  · exact inv_takeError h hphase cause rest
  · exact inv_startFrame hr (draws_isSome hdraw) c rest keys s

theorem inv_emitHdr {s t : State} (h : Inv s) (hphase : s.enc.phase = .hdr) (hstep : emitHdr s = .next t) : Inv t := by
  obtain ⟨-, rfl⟩ | ⟨-, b, -, rfl⟩ := emitHdr_next hstep
  · exact h
  · exact inv_afterHdr h hphase rfl rfl

theorem inv_emitPay {s t : State} (h : Inv s) (hphase : s.enc.phase = .pay) (hstep : emitPay s = .next t) : Inv t := by
  obtain ⟨-, rfl⟩ | ⟨-, rfl⟩ | ⟨-, b, m, -, -, rfl⟩ := emitPay_next hstep
  · exact h
  · exact h
  · exact inv_afterPay h hphase rfl rfl

/-- Settles O30: the environment's moves keep the invariant, and so does each of the four steps that can follow them. -/
theorem invKeptByStep : Obligations.InvKeptByStep := by
  intro s t h hstep
  have hmoved := inv_takeInputs h
  have henc := takeInputs_enc s
  obtain ⟨-, rfl⟩ | ⟨-, ⟨hphase, hidle⟩ | ⟨hphase, hhdr⟩ | ⟨hphase, hpay⟩⟩ := step_next hstep
  · exact inv_reset hmoved.pin
  · exact inv_stepIdle hmoved (henc ▸ hphase) hidle
  · exact inv_emitHdr hmoved (henc ▸ hphase) hhdr
  · exact inv_emitPay hmoved (henc ▸ hphase) hpay

/-- Settles O31: the registers after reset meet the invariant, and the first environment has supplied no byte. -/
theorem invAtReset : Obligations.InvAtReset := inv_reset (v := Env.initial) rfl

/-- A property that every step keeps holds wherever a run from a state that has it leads. -/
theorem run_keeps {P : State → Prop} (hstep : ∀ s t, P s → step s = .next t → P t) (n : Nat) {s t : State} (hs : P s)
    (hrun : Host.Core.run core n s = .next t) : P t := by
  induction n generalizing s with
  | zero => exact Host.Outcome.next.inj hrun ▸ hs
  | succ n ih =>
    cases hnext : step s with
    | next u => exact ih (hstep s u hs hnext) (by simpa [Host.Core.run, core, hnext] using hrun)
    | fault f => simp [Host.Core.run, core, hnext] at hrun
    | refused f => simp [Host.Core.run, core, hnext] at hrun

/-- Settles O32: the invariant holds of the registers after reset in every environment, and every step keeps it. -/
theorem reachableStatesMeetInv : Obligations.ReachableStatesMeetInv :=
  fun _ n _ hpin hrun => run_keeps (P := Inv) invKeptByStep n (inv_reset hpin) hrun

/-! ### No step from the invariant stops (R31, R190) -/

theorem hbufAt_of_lt {e : Encoder} (h : FrameInFlight e) {j : Nat} (hj : j < e.hlen.toNat) : ∃ b, e.hbufAt j = some b :=
  ⟨e.hbuf[j]'(h.hbufLen ▸ hj), by simp [Encoder.hbufAt, hj, h.hbufLen]⟩

/-- `Q_PFXN` is 0 or 2, and both `Q_PFX` bytes exist, so every payload byte has a value or is one to wait for (R175). -/
theorem payByte_ne_noValue {s : State} (hpfxn : s.enc.qPfxn.toNat = 0 ∨ s.enc.qPfxn.toNat = 2) (i : Nat) :
    s.payByte i ≠ .noValue := by
  unfold State.payByte
  split
  next hi =>
    obtain rfl | rfl : i = 0 ∨ i = 1 := by omega
    · simp [Encoder.qPfxAt]
    · simp [Encoder.qPfxAt]
  next => split <;> simp

/-- Where `KV` tells whether the request is masked, the masker has its key (R22). -/
theorem maskByte_of_kv {e : Encoder} (h : e.kv = e.qMask) (b : Byte) : ∃ m, e.maskByte b = some m := by
  cases hmask : e.qMask with
  | false => exact ⟨b, by simp [Encoder.maskByte, hmask]⟩
  | true =>
    obtain ⟨key, hk⟩ := Option.isSome_iff_exists.mp (h.trans hmask)
    exact ⟨b ^^^ key.byte e.pidx.toNat, by simp [Encoder.maskByte, hmask, hk]⟩

theorem stepIdle_goes_on {s : State} (hphase : s.enc.phase = .idle) : ∃ t, stepIdle s = .next t := by
  cases hcmd : s.env.cmd with
  | nil => exact ⟨s, stepIdle_nil hcmd⟩
  | cons c rest => exact stepIdle_cons hcmd ▸ accept_idle_next _ hphase

theorem emitHdr_goes_on {s : State} (h : FrameInFlight s.enc) (hidx : s.enc.hidx.toNat < s.enc.hlen.toNat) :
    ∃ t, emitHdr s = .next t := by
  cases hsink : s.env.sinkReady with
  | false => exact ⟨s, emitHdr_held hsink⟩
  | true =>
    obtain ⟨b, hb⟩ := hbufAt_of_lt h hidx
    exact ⟨_, emitHdr_emits hsink hb⟩

theorem emitPay_goes_on {s : State} (h : FrameInFlight s.enc) : ∃ t, emitPay s = .next t := by
  cases hsink : s.env.sinkReady with
  | false => exact ⟨s, emitPay_held hsink⟩
  | true =>
    cases hbyte : s.payByte s.enc.pidx.toNat with
    | wait => exact ⟨s, emitPay_waits hbyte⟩
    | noValue => exact absurd hbyte (payByte_ne_noValue h.pfxn _)
    | byte b =>
      obtain ⟨m, hm⟩ := maskByte_of_kv h.key b
      exact ⟨_, emitPay_emits hsink hbyte hm⟩

/-- Settles O33: RESET always goes on, and the invariant gives each phase's step every value it reads. -/
theorem invNeverStops : Obligations.InvNeverStops := by
  intro s h
  have henc := takeInputs_enc s
  cases hline : s.takeInputs.env.resetLine with
  | true => exact ⟨_, step_reset hline⟩
  | false =>
    cases hphase : s.enc.phase with
    | noValue => exact absurd hphase h.phase
    | idle => exact step_idle hline hphase ▸ stepIdle_goes_on (henc ▸ hphase)
    | hdr => exact step_hdr hline hphase ▸ emitHdr_goes_on (henc ▸ h.flight (.inl hphase)) (henc ▸ (h.hdr hphase).1)
    | pay => exact step_pay hline hphase ▸ emitPay_goes_on (henc ▸ h.flight (.inr hphase))

/-! ### What the host reads (R27, R32, R55) -/

/-- Settles O27: `Encoder.reset` holds the values R32 names, and the host's interface starts there. -/
theorem resetState : Obligations.ResetState := ⟨rfl, rfl, rfl, rfl, rfl, rfl, rfl⟩

theorem busy_iff (e : Encoder) : e.busy = true ↔ e.phase ≠ .idle := decide_eq_true_iff

/-- Settles O59: `RES` is read straight from the registers, `BUSY` from `PHASE`. -/
theorem resReads : Obligations.ResReads := fun s => ⟨busy_iff s.enc, rfl, rfl, rfl, rfl⟩

/-! ### Registers that hold no value are not read (R31, U9) -/

theorem sameOutcome_next {s t : State} (henc : SameValues s.enc t.enc) (henv : s.env = t.env) :
    SameOutcome (.next s) (.next t) := And.intro henc henv

/-- Outside a frame only `PHASE`, `K` with `KV`, and `RES` hold a value. -/
theorem sameValues_of_not_inFlight {e f : Encoder} (hflight : ¬(e.phase = .hdr ∨ e.phase = .pay))
    (hphase : e.phase = f.phase) (hk : e.k = f.k) (hstatus : e.status = f.status) (hdetail : e.detail = f.detail)
    (hrHlen : e.rHlen = f.rHlen) (hrFlen : e.rFlen = f.rFlen) : SameValues e f :=
  ⟨hphase, hk, hstatus, hdetail, hrHlen, hrFlen, fun h => absurd h hflight⟩

theorem sameValues_resultError {e f : Encoder} (h : SameValues e f) (hphase : e.phase = .idle) (cause : Cause) :
    SameValues (e.resultError cause) (f.resultError cause) :=
  sameValues_of_not_inFlight (by simp [hphase]) h.phase h.k rfl rfl rfl rfl

theorem sameValues_complete {e f : Encoder} (h : SameValues e f) : SameValues e.complete f.complete :=
  sameValues_of_not_inFlight (by simp) rfl rfl h.status h.detail h.rHlen h.rFlen

/-- In flight, the phase and the indexes can be set to one value in both encoders. -/
theorem sameValues_reindex {e f : Encoder} (h : SameValues e f) (hflight : e.phase = .hdr ∨ e.phase = .pay)
    (phase : Phase) (hidx : BitVec 4) (pidx : BitVec 64) :
    SameValues { e with phase, hidx, pidx } { f with phase, hidx, pidx } :=
  { h with phase := rfl, flight := fun _ => ⟨rfl, rfl, (h.flight hflight).2.2⟩ }

theorem sameValues_afterHdr {e f : Encoder} (h : SameValues e f) (hphase : e.phase = .hdr) :
    SameValues e.afterHdr f.afterHdr := by
  have hreindex := sameValues_reindex h (.inl hphase)
  obtain ⟨hidx, hpidx, -, -, -, hpl, -, -, hhlen, -⟩ := h.flight (.inl hphase)
  unfold Encoder.afterHdr
  rw [← hidx, ← hhlen, ← hpl]
  split
  · simpa only [← h.phase, ← hpidx, ← hhlen, ← hpl] using hreindex e.phase (e.hidx + 1) e.pidx
  · split
    · simpa only [← hidx, ← hpidx, ← hhlen, ← hpl] using hreindex .pay e.hidx e.pidx
    · exact sameValues_complete h

theorem sameValues_afterPay {e f : Encoder} (h : SameValues e f) (hphase : e.phase = .pay) :
    SameValues e.afterPay f.afterPay := by
  have hreindex := sameValues_reindex h (.inr hphase)
  obtain ⟨hidx, hpidx, -, -, -, hpl, -⟩ := h.flight (.inr hphase)
  unfold Encoder.afterPay
  rw [← hpidx, ← hpl]
  split
  · simpa only [← h.phase, ← hidx, ← hpl] using hreindex e.phase e.hidx (e.pidx + 1)
  · exact sameValues_complete h

/-- An acceptance writes every register that holds a value in flight; the `Q_PFX` bytes it leaves are beyond `Q_PFXN`. -/
theorem sameValues_startFrame {cw0 cw1 : Word} {r : Request} (hr : resolve Config.maxlen cw0 cw1 = .ok r)
    (key : Option Key) (e f : Encoder) : SameValues (e.startFrame r key) (f.startFrame r key) where
  phase  := rfl
  k      := rfl
  status := rfl
  detail := rfl
  rHlen  := rfl
  rFlen  := rfl
  flight := fun _ => by
    refine ⟨rfl, rfl, rfl, rfl, rfl, rfl, rfl, fun j hj => ?_, rfl, fun _ => rfl⟩
    rw [startFrame_qPfxn_toNat hr] at hj
    obtain ⟨-, hpfx | ⟨a, b, hpfx⟩, -⟩ := resolve_ok hr
    · simp [hpfx] at hj
    · simp [Encoder.qPfxAt, hpfx]

/-- What the agents around the encoder do does not depend on its registers. -/
theorem takeInputs_env_congr {s t : State} (h : s.env = t.env) : s.takeInputs.env = t.takeInputs.env := by
  obtain ⟨e, v⟩ := s
  obtain ⟨f, w⟩ := t
  cases h
  unfold State.takeInputs
  dsimp only
  split <;> rfl

section
variable {s t : State} (h : SameValues s.enc t.enc) (henv : s.env = t.env)
include h henv

theorem stepIdle_sameOutcome (hphase : s.enc.phase = .idle) : SameOutcome (stepIdle s) (stepIdle t) := by
  have hphase' : t.enc.phase = .idle := h.phase ▸ hphase
  cases hcmd : s.env.cmd with
  | nil =>
    rw [stepIdle_nil hcmd, stepIdle_nil (henv ▸ hcmd)]
    exact sameOutcome_next h henv
  | cons c rest =>
    have hcmd' : t.env.cmd = c :: rest := henv ▸ hcmd
    rw [stepIdle_cons hcmd, stepIdle_cons hcmd']
    cases hr : resolve Config.maxlen c.cw0 c.cw1 with
    | error cause =>
      rw [accept_error hphase hcmd, accept_error hphase' hcmd']
      exact sameOutcome_next (sameValues_resultError h hphase cause) (by simp [State.takeError, henv])
    | ok r =>
      cases hm : r.mask with
      | false =>
        rw [accept_unmasked hphase hcmd hm, accept_unmasked hphase' hcmd' hm]
        exact sameOutcome_next (sameValues_startFrame hr none _ _) (by simp [State.startFrame, henv])
      | true =>
        cases hk : s.env.keys with
        | nil =>
          rw [accept_noKey hphase hcmd hm hk, accept_noKey hphase' hcmd' hm (henv ▸ hk)]
          exact sameOutcome_next h henv
        | cons key keys =>
          rw [accept_masked hphase hcmd hm hk, accept_masked hphase' hcmd' hm (henv ▸ hk)]
          exact sameOutcome_next (sameValues_startFrame hr (some key) _ _) (by simp [State.startFrame, henv])

theorem emitHdr_sameOutcome (hphase : s.enc.phase = .hdr) : SameOutcome (emitHdr s) (emitHdr t) := by
  obtain ⟨hidx, -, -, -, -, -, -, -, -, hbuf⟩ := h.flight (.inl hphase)
  unfold emitHdr
  rw [← henv, ← hidx, ← hbuf]
  split
  · split
    · rfl
    · exact sameOutcome_next (sameValues_afterHdr h hphase) (by simp [State.emit, henv])
  · exact sameOutcome_next h henv

/-- The byte's source is told by `Q_PFXN`, the `Q_PFX` bytes below it and `PIN` alone. -/
theorem payByte_congr (hphase : s.enc.phase = .pay) (i : Nat) : s.payByte i = t.payByte i := by
  obtain ⟨-, -, -, -, -, -, hpfxn, hpfx, -⟩ := h.flight (.inr hphase)
  unfold State.payByte
  rw [← hpfxn, ← henv]
  split
  next hi => rw [hpfx i hi]
  next => rfl

theorem emitPay_sameOutcome (hphase : s.enc.phase = .pay) : SameOutcome (emitPay s) (emitPay t) := by
  obtain ⟨-, hpidx, -, -, hmask, -, -, -, hhlen, -⟩ := h.flight (.inr hphase)
  have hmaskByte (b : Byte) : s.enc.maskByte b = t.enc.maskByte b := by
    simp [Encoder.maskByte, hmask, h.k, hpidx]
  unfold emitPay
  simp only [← henv, ← hpidx, ← hhlen, ← payByte_congr h henv hphase, ← hmaskByte]
  split
  · split
    · exact sameOutcome_next h henv
    · rfl
    · split
      · rfl
      · exact sameOutcome_next (sameValues_afterPay h hphase) (by simp [State.emit, henv])
  · exact sameOutcome_next h henv

end

theorem sameValues_refl (e : Encoder) : SameValues e e :=
  ⟨rfl, rfl, rfl, rfl, rfl, rfl, fun _ => ⟨rfl, rfl, rfl, rfl, rfl, rfl, rfl, fun _ _ => rfl, rfl, fun _ => rfl⟩⟩

/-- Settles O35: the environment moves alike on both sides, the phase enables the same step, and each step reads only
registers on which the two machines agree. -/
theorem noValueRegistersUnread : Obligations.NoValueRegistersUnread := by
  intro s t h henv
  have hmoved : SameValues s.takeInputs.enc t.takeInputs.enc := by simpa using h
  have henv' := takeInputs_env_congr henv
  have hphase' := takeInputs_enc s
  cases hline : s.takeInputs.env.resetLine with
  | true =>
    rw [step_reset hline, step_reset (henv' ▸ hline)]
    exact sameOutcome_next (sameValues_refl _) henv'
  | false =>
    have hline' : t.takeInputs.env.resetLine = false := henv' ▸ hline
    cases hphase : s.enc.phase with
    | noValue =>
      rw [step_noValue hline hphase, step_noValue hline' (h.phase ▸ hphase)]
      rfl
    | idle =>
      rw [step_idle hline hphase, step_idle hline' (h.phase ▸ hphase)]
      exact stepIdle_sameOutcome hmoved henv' (by simpa using hphase)
    | hdr =>
      rw [step_hdr hline hphase, step_hdr hline' (h.phase ▸ hphase)]
      exact emitHdr_sameOutcome hmoved henv' (by simpa using hphase)
    | pay =>
      rw [step_pay hline hphase, step_pay hline' (h.phase ▸ hphase)]
      exact emitPay_sameOutcome hmoved henv' (by simpa using hphase)

end Sys2Proof.Machine
end

section
/-!
PROOFS. The ports of the encoder (spec 20_memory.md): what a step can do to the payload input `PIN` (R52, R60), to the key
source (R53, R130) and to `FOUT` (R54).
-/

namespace Sys2Proof.Machine

/-! ### The index of the next byte in its frame (R25, R54) -/

theorem framePos_of_hdr {e : Encoder} (hphase : e.phase = .hdr) : framePos e = e.hidx.toNat := by
  simp [framePos, hphase]

theorem framePos_of_pay {e : Encoder} (hphase : e.phase = .pay) : framePos e = e.hlen.toNat + e.pidx.toNat := by
  simp [framePos, hphase]

@[simp] theorem complete_busy (e : Encoder) : e.complete.busy = false := rfl

/-- The next byte of a frame in flight lies in the frame: a header byte below `HLEN`, a payload byte below `HLEN + Q_PL`. -/
theorem framePos_lt_rFlen {s : State} (h : Inv s) (hflight : s.enc.phase = .hdr ∨ s.enc.phase = .pay) :
    framePos s.enc < s.enc.rFlen.toNat := by
  have hrFlen := (h.flight hflight).rFlen
  obtain hphase | hphase := hflight
  · have hidx := (h.hdr hphase).1
    rw [framePos_of_hdr hphase]
    omega
  · have hpidx := h.pay hphase
    rw [framePos_of_pay hphase]
    omega

/-- After a header byte the next index is one more, also where the payload begins, at index `HLEN` (R173). -/
theorem framePos_afterHdr {s : State} (h : Inv s) (hphase : s.enc.phase = .hdr) (hbusy : s.enc.afterHdr.busy = true) :
    framePos s.enc.afterHdr = framePos s.enc + 1 := by
  obtain ⟨hidx, hpidx⟩ := h.hdr hphase
  rw [framePos_of_hdr hphase]
  obtain ⟨hlt, hafter⟩ | ⟨hle, -, hafter⟩ | ⟨-, -, hafter⟩ := afterHdr_cases s.enc <;> rw [hafter] at hbusy ⊢
  · rw [framePos_of_hdr (e := { s.enc with hidx := s.enc.hidx + 1 }) hphase]
    exact toNat_succ_of_lt hlt
  · have hlast : s.enc.hlen.toNat = s.enc.hidx.toNat + 1 := by omega
    simp [framePos_of_pay, hpidx, hlast]
  · simp at hbusy

/-- After a payload byte the next index is one more (R174). -/
theorem framePos_afterPay {e : Encoder} (hphase : e.phase = .pay) (hbusy : e.afterPay.busy = true) :
    framePos e.afterPay = framePos e + 1 := by
  rw [framePos_of_pay hphase]
  obtain ⟨hlt, hafter⟩ | ⟨-, hafter⟩ := afterPay_cases e <;> rw [hafter] at hbusy ⊢
  · rw [framePos_of_pay (e := { e with pidx := e.pidx + 1 }) hphase]
    exact congrArg (e.hlen.toNat + ·) (toNat_succ_of_lt hlt)
  · simp at hbusy

/-! ### What a step can do to the ports -/

/-- All that a step can do to the ports: it touches none but `CMD` (RESET, a hold, an error), or it accepts the presented
command with its key draw (R171), or it emits the byte at `framePos` from `HDR` or from `PAY` (R173, R174). -/
theorem step_ports {s t : State} (h : step s = .next t) :
    (∃ cmd, t.env = { s.takeInputs.env with cmd }) ∨
    (∃ c rest r key keys, s.takeInputs.enc.phase = .idle ∧ s.takeInputs.env.cmd = c :: rest ∧
      Draws r.mask s.takeInputs.env.keys key keys ∧ t = s.takeInputs.startFrame r key c rest keys) ∨
    (∃ b, t.env = (s.takeInputs.emit (framePos s.takeInputs.enc) b).env ∧
      ((s.takeInputs.enc.phase = .hdr ∧ t.enc = s.takeInputs.enc.afterHdr) ∨
       (s.takeInputs.enc.phase = .pay ∧ t.enc = s.takeInputs.enc.afterPay))) := by
  have hsteps := step_next h
  rw [← takeInputs_enc s] at hsteps
  obtain ⟨-, rfl⟩ | ⟨-, ⟨hphase, hidle⟩ | ⟨hphase, hhdr⟩ | ⟨hphase, hpay⟩⟩ := hsteps
  · exact .inl ⟨_, rfl⟩
  · obtain ⟨rfl, -⟩ | ⟨c, rest, cause, -, -, rfl⟩ | ⟨c, rest, r, key, keys, hcmd, -, hdraw, rfl⟩ :=
      stepIdle_next hphase hidle
    · exact .inl ⟨_, rfl⟩
    · exact .inl ⟨rest, rfl⟩
    · exact .inr (.inl ⟨c, rest, r, key, keys, hphase, hcmd, hdraw, rfl⟩)
  · obtain ⟨-, rfl⟩ | ⟨-, b, -, rfl⟩ := emitHdr_next hhdr
    · exact .inl ⟨_, rfl⟩
    · exact .inr (.inr ⟨b, framePos_of_hdr hphase ▸ rfl, .inl ⟨hphase, rfl⟩⟩)
  · obtain ⟨-, rfl⟩ | ⟨-, rfl⟩ | ⟨-, b, m, -, -, rfl⟩ := emitPay_next hpay
    · exact .inl ⟨_, rfl⟩
    · exact .inl ⟨_, rfl⟩
    · exact .inr (.inr ⟨m, framePos_of_pay hphase ▸ rfl, .inr ⟨hphase, rfl⟩⟩)

/-- Settles O34: the environment's moves keep the canonical form, and an acceptance lays out the source bytes in it. -/
theorem pinStaysCanonical : Obligations.PinStaysCanonical := by
  intro s t hwf hstep
  have hmoved := takeInputs_pin_wf s hwf
  obtain ⟨cmd, henv⟩ | ⟨c, rest, r, key, keys, -, -, -, rfl⟩ | ⟨b, henv, -⟩ := step_ports hstep
  · exact henv ▸ hmoved
  · exact memory_wf_ofBytes c.src
  · exact henv ▸ hmoved

/-- Settles O36: an emitting step puts out the byte at `framePos`, which the invariant keeps inside the frame, and moves the
index on by one unless the frame ends. -/
theorem emittedInIndexOrder : Obligations.EmittedInIndexOrder := by
  intro s t h hstep
  have hmoved := inv_takeInputs h
  obtain ⟨cmd, henv⟩ | ⟨c, rest, r, key, keys, -, -, -, rfl⟩ | ⟨b, henv, hemits⟩ := step_ports hstep
  · exact .inl (by simp [henv])
  · exact .inl rfl
  refine .inr ⟨b, congrArg Env.fout henv, ?_⟩
  obtain ⟨hphase, henc⟩ | ⟨hphase, henc⟩ := hemits
  · exact ⟨framePos_lt_rFlen hmoved (.inl hphase), henc ▸ framePos_afterHdr hmoved hphase⟩
  · exact ⟨framePos_lt_rFlen hmoved (.inr hphase), henc ▸ framePos_afterPay hphase⟩

/-- Settles O39: of the steps only an acceptance changes the key source, and its draw takes a key exactly if the request is
masked. -/
theorem keyDrawnOncePerMaskedAccept : Obligations.KeyDrawnOncePerMaskedAccept := by
  intro s t hstep
  obtain ⟨cmd, henv⟩ | ⟨c, rest, r, key, keys, hphase, -, hdraw, rfl⟩ | ⟨b, henv, -⟩ := step_ports hstep
  · exact .inl (by simp [henv])
  · obtain ⟨-, -, hkeys⟩ | ⟨hmask, k, hkey, hkeys⟩ := hdraw
    · exact .inl hkeys
    · exact .inr ⟨k, hkeys, hphase, rfl, hmask, hkey⟩
  · exact .inl (by simp [henv])

/-- Settles O40: of the steps only an acceptance changes `PIN`, and it puts the command's source bytes there, each at its own
index. -/
theorem payloadInputNeverWritten : Obligations.PayloadInputNeverWritten := by
  intro s t hstep
  obtain ⟨cmd, henv⟩ | ⟨c, rest, r, key, keys, hphase, hcmd, -, rfl⟩ | ⟨b, henv, -⟩ := step_ports hstep
  · exact .inl (by simp [henv])
  · exact .inr ⟨hphase, rfl, c, rest, hcmd, memory_read_ofBytes c.src⟩
  · exact .inl (by simp [henv])

end Sys2Proof.Machine
end

section
/-!
PROOFS. The descriptor and the header as a reader has them (spec 30_encoding.md): the decoder by `KIND` (R88) and on encoded
commands (R100), the fields each command ignores (R85), the builders as expansions into SYNTH (R102), and the header read
back from its bytes (R93, R97).
-/

namespace Sys2Proof.Machine

/-! ### The decoder: its outcome for each `KIND` (R88) -/

section
variable {cw0 : Word} (cw1 : Word)

theorem decode_rsvdBits (hrsvd : rsvdSet cw0 = true) : decode cw0 cw1 = .error .rsvdBits := by
  simp [decode, hrsvd]

theorem decode_badKind (hrsvd : rsvdSet cw0 = false) (hkind : 6 ≤ (kindOf cw0).toNat) :
    decode cw0 cw1 = .error .badKind := by
  rw [decode, if_neg (by simp [hrsvd])]
  split
  case h_7 => rfl
  all_goals omega

theorem decode_synth (hrsvd : rsvdSet cw0 = false) (hkind : kindOf cw0 = 0) :
    decode cw0 cw1 = .ok (.synth (finOf cw0) (maskedOf cw0) (opcOf cw0) cw1) := by
  simp [decode, hrsvd, hkind]

theorem decode_text (hrsvd : rsvdSet cw0 = false) (hkind : kindOf cw0 = 1) :
    decode cw0 cw1 = .ok (.text (maskedOf cw0) cw1) := by
  simp [decode, hrsvd, hkind]

theorem decode_binary (hrsvd : rsvdSet cw0 = false) (hkind : kindOf cw0 = 2) :
    decode cw0 cw1 = .ok (.binary (maskedOf cw0) (finOf cw0) (firstOf cw0) cw1) := by
  simp [decode, hrsvd, hkind]

theorem decode_close_code (hrsvd : rsvdSet cw0 = false) (hkind : kindOf cw0 = 3) (hcodev : codevOf cw0 = true) :
    decode cw0 cw1 = .ok (.close (maskedOf cw0) (some (codeOf cw0)) cw1) := by
  simp [decode, hrsvd, hkind, hcodev]

theorem decode_close_noCode (hrsvd : rsvdSet cw0 = false) (hkind : kindOf cw0 = 3) (hcodev : codevOf cw0 = false) :
    decode cw0 cw1 = .ok (.close (maskedOf cw0) none cw1) := by
  simp [decode, hrsvd, hkind, hcodev]

theorem decode_ping (hrsvd : rsvdSet cw0 = false) (hkind : kindOf cw0 = 4) :
    decode cw0 cw1 = .ok (.ping (maskedOf cw0)) := by
  simp [decode, hrsvd, hkind]

theorem decode_pong (hrsvd : rsvdSet cw0 = false) (hkind : kindOf cw0 = 5) :
    decode cw0 cw1 = .ok (.pong (maskedOf cw0) cw1) := by
  simp [decode, hrsvd, hkind]

end

/-- Settles O1: an encoded descriptor has no reserved bit set and its command's `KIND`, which selects the case of the
decoder; every field the case reads is the one that was packed. -/
theorem decodeOfEncode : Obligations.DecodeOfEncode := by
  intro i
  cases i with
  | synth fin masked opc len =>
    simp [encode, decode_synth, rsvdSet_pack, kindOf_pack, finOf_pack, maskedOf_pack, opcOf_pack]
  | text masked len => simp [encode, decode_text, rsvdSet_pack, kindOf_pack, maskedOf_pack]
  | binary masked fin first len =>
    simp [encode, decode_binary, rsvdSet_pack, kindOf_pack, maskedOf_pack, finOf_pack, firstOf_pack]
  | close masked code len =>
    cases code with
    | none => simp [encode, decode_close_noCode, rsvdSet_pack, kindOf_pack, maskedOf_pack, codevOf_pack]
    | some code =>
      simp [encode, decode_close_code, rsvdSet_pack, kindOf_pack, maskedOf_pack, codevOf_pack, codeOf_pack]
  | ping masked => simp [encode, decode_ping, rsvdSet_pack, kindOf_pack, maskedOf_pack]
  | pong masked len => simp [encode, decode_pong, rsvdSet_pack, kindOf_pack, maskedOf_pack]

/-- Settles O2: the fields of the nine words, read out. -/
theorem decodeWrittenWords : Obligations.DecodeWrittenWords :=
  ⟨rfl, rfl, rfl, rfl, rfl, rfl, rfl, rfl, rfl⟩

/-! ### The rows of the opcode table (R88) -/

theorem rsvdSet_false_iff (cw0 : Word) : rsvdSet cw0 = false ↔ cw0 &&& rsvdMask = 0 := by
  simp [rsvdSet]

/-- The table's mask is the reserved bits and the three bits of `KIND`. -/
theorem and_tableMask (cw0 : Word) :
    cw0 &&& 0x00000000FFFFF087#64 = (cw0 &&& rsvdMask) ||| (kindOf cw0).setWidth 64 := by
  have hmask : 0x00000000FFFFF087#64 = rsvdMask ||| BitVec.ofNat 64 (2 ^ 3 - 1) := by decide
  have hkind : cw0 &&& BitVec.ofNat 64 (2 ^ 3 - 1) = (kindOf cw0).setWidth 64 := by
    apply BitVec.eq_of_toNat_eq
    simp [kindOf, Nat.and_two_pow_sub_one_eq_mod cw0.toNat 3]
    omega
  rw [hmask, BitVec.and_or_distrib_left, hkind]

/-- `KIND` lies outside the reserved bits. -/
theorem and_tableMask_and_rsvdMask (cw0 : Word) : cw0 &&& 0x00000000FFFFF087#64 &&& rsvdMask = cw0 &&& rsvdMask := by
  have hmask : 0x00000000FFFFF087#64 &&& rsvdMask = rsvdMask := by decide
  rw [BitVec.and_assoc, hmask]

/-- A descriptor matches the table's row `k` exactly if it has no reserved bit set and `KIND = k`. -/
theorem and_tableMask_eq_iff (cw0 : Word) {k : Nat} (hk : k < 6) :
    cw0 &&& 0x00000000FFFFF087#64 = BitVec.ofNat 64 k ↔ rsvdSet cw0 = false ∧ (kindOf cw0).toNat = k := by
  have hrow : BitVec.ofNat 64 k &&& rsvdMask = 0 := by
    revert k; decide
  have hsetWidth : (kindOf cw0).setWidth 64 = BitVec.ofNat 64 k ↔ (kindOf cw0).toNat = k := by
    simp [← BitVec.toNat_inj]
    omega
  rw [rsvdSet_false_iff]
  constructor
  · intro h
    have hrsvd : cw0 &&& rsvdMask = 0 := by rw [← and_tableMask_and_rsvdMask, h, hrow]
    exact ⟨hrsvd, hsetWidth.mp (by simpa [and_tableMask, hrsvd] using h)⟩
  · rintro ⟨hrsvd, hkind⟩
    rw [and_tableMask, hrsvd, hsetWidth.mpr hkind]
    exact BitVec.zero_or

/-- A decoded command is of the descriptor's `KIND`, and no reserved bit was set. -/
theorem decode_ok_kind {cw0 cw1 : Word} {i : Instr} (h : decode cw0 cw1 = .ok i) :
    rsvdSet cw0 = false ∧ (kindOf cw0).toNat = kindNumber i := by
  unfold decode at h
  split at h
  next => cases h
  next hrsvd =>
    refine ⟨by simpa using hrsvd, ?_⟩
    split at h <;> cases h <;> assumption

/-- Only a reserved bit or a `KIND` above 5 is refused. -/
theorem decode_ok_of_kind {cw0 : Word} (cw1 : Word) (hrsvd : rsvdSet cw0 = false) (hkind : (kindOf cw0).toNat < 6) :
    ∃ i, decode cw0 cw1 = .ok i := by
  rw [decode, if_neg (by simp [hrsvd])]
  split
  case h_7 h0 h1 h2 h3 h4 h5 => simp only [imp_false] at h0 h1 h2 h3 h4 h5; omega
  all_goals exact ⟨_, rfl⟩

theorem kindNumber_lt (i : Instr) : kindNumber i < 6 := by
  cases i <;> simp [kindNumber]

/-- The decoder answers a command of row `k` exactly for the descriptors that match it. -/
theorem tableRow_iff (cw0 cw1 : Word) {k : Nat} (hk : k < 6) :
    cw0 &&& 0x00000000FFFFF087#64 = BitVec.ofNat 64 k ↔ ∃ i, decode cw0 cw1 = .ok i ∧ kindNumber i = k := by
  rw [and_tableMask_eq_iff cw0 hk]
  constructor
  · rintro ⟨hrsvd, hkind⟩
    obtain ⟨i, hi⟩ := decode_ok_of_kind cw1 hrsvd (by omega)
    exact ⟨i, hi, (decode_ok_kind hi).2.symm.trans hkind⟩
  · rintro ⟨i, hi, rfl⟩
    exact decode_ok_kind hi

/-- A descriptor that matches no row is refused. -/
theorem decode_error_of_no_row {cw0 : Word} (cw1 : Word)
    (h : ∀ k : Nat, k < 6 → cw0 &&& 0x00000000FFFFF087#64 ≠ BitVec.ofNat 64 k) : ∃ e, decode cw0 cw1 = .error e := by
  cases hd : decode cw0 cw1 with
  | error e => exact ⟨e, rfl⟩
  | ok i => exact absurd ((tableRow_iff cw0 cw1 (kindNumber_lt i)).mpr ⟨i, hd, rfl⟩) (h _ (kindNumber_lt i))

/-- Settles O3: the decoder's equations by `KIND`, and the table's rows. -/
theorem decodeTotal : Obligations.DecodeTotal := by
  intro cw0 cw1
  refine ⟨fun h => decode_rsvdBits cw1 (by simpa [rsvdSet, rsvdMask] using h), fun h => ?_,
    fun _ hk => tableRow_iff cw0 cw1 hk, decode_error_of_no_row cw1⟩
  have hrsvd : rsvdSet cw0 = false := (rsvdSet_false_iff cw0).mpr h
  exact ⟨decode_badKind cw1 hrsvd, decode_synth cw1 hrsvd, decode_text cw1 hrsvd, decode_binary cw1 hrsvd,
    fun hkind => ⟨decode_close_code cw1 hrsvd hkind, decode_close_noCode cw1 hrsvd hkind⟩,
    decode_ping cw1 hrsvd, decode_pong cw1 hrsvd⟩

/-! ### The fields a command ignores (R85) -/

/-- `Resolve` reads an unreserved descriptor only through `KIND`, the masked flag, the two value tests and, for a `KIND` in
the table, line 5 of R159. -/
theorem resolve_congr {m : Nat} {a0 a1 b0 b1 : Word} (ha : rsvdSet a0 = false) (hb : rsvdSet b0 = false)
    (hkind : kindOf a0 = kindOf b0) (hmasked : maskedOf a0 = maskedOf b0) (hopc : kindOf a0 = 0 → opcOf a0 = opcOf b0)
    (hclose : kindOf a0 = 3 → codevOf a0 = codevOf b0 ∧ (codevOf a0 = true → codeOf a0 = codeOf b0))
    (hargs : (kindOf a0).toNat < 6 → resolveArgs a0 a1 = resolveArgs b0 b1) : resolve m a0 a1 = resolve m b0 b1 := by
  by_cases hbad : 6 ≤ (kindOf a0).toNat
  · rw [resolve_of_decode_error (decode_badKind a1 ha hbad),
      resolve_of_decode_error (decode_badKind b1 hb (hkind ▸ hbad))]
  have hopcTest : ((kindOf a0).toNat = 0 ∧ validOpcode (opcOf a0) = false) ↔
      ((kindOf a0).toNat = 0 ∧ validOpcode (opcOf b0) = false) :=
    and_congr_right fun h0 => by rw [hopc (BitVec.eq_of_toNat_eq h0)]
  have hcodeTest : ((kindOf a0).toNat = 3 ∧ codevOf a0 ∧ 65535 < (codeOf a0).toNat) ↔
      ((kindOf a0).toNat = 3 ∧ codevOf b0 ∧ 65535 < (codeOf b0).toNat) := by
    refine and_congr_right fun h3 => ?_
    obtain ⟨hcodev, hcode⟩ := hclose (BitVec.eq_of_toNat_eq h3)
    rw [← hcodev]
    exact and_congr_right fun hv => by rw [hcode hv]
  simp only [resolve, ha, hb, ← hkind, hmasked, hopcTest, hcodeTest, hargs (Nat.lt_of_not_le hbad)]

theorem closePayload_noCode (code : BitVec 32) (len : Nat) : closePayload false code len = ([], 0) := by
  simp [closePayload]

theorem closePayload_1005 (codev : Bool) {code : BitVec 32} (len : Nat) (h : code.toNat = 1005) :
    closePayload codev code len = ([], 0) := by
  simp [closePayload, h]

theorem closePayload_code {code : BitVec 32} (len : Nat) (h : code.toNat ≠ 1005) :
    closePayload true code len = (closeBytes code, len) := by
  simp [closePayload, h]

/-- A close payload depends on the code only where there is one, and on the length only where the code can be sent. -/
theorem closePayload_congr {codev : Bool} {code code' : BitVec 32} {len len' : Word}
    (h : codev = true → code = code' ∧ (code.toNat ≠ 1005 → len = len')) :
    closePayload codev code len.toNat = closePayload codev code' len'.toNat := by
  cases codev with
  | false => rw [closePayload_noCode, closePayload_noCode]
  | true =>
    obtain ⟨rfl, hlen⟩ := h rfl
    by_cases h1005 : code.toNat = 1005
    · rw [closePayload_1005 _ _ h1005, closePayload_1005 _ _ h1005]
    · rw [hlen h1005]

theorem frame_congr {m : Nat} {a0 a1 b0 b1 : Word} (h : resolve m a0 a1 = resolve m b0 b1) (src : List Byte) (key : Key) :
    frame m a0 a1 src key = frame m b0 b1 src key := by
  rw [frame, frame, h]

/-- Settles O4: line 5 of `Resolve` reads, for each `KIND` in the table, the fields its command reads and no others. -/
theorem ignoredFieldsHaveNoEffect : Obligations.IgnoredFieldsHaveNoEffect := by
  intro m a0 a1 b0 b1 ha hb hkind hmasked hsynth htext hbinary hclose hpong
  have hargs (hlt : (kindOf a0).toNat < 6) : resolveArgs a0 a1 = resolveArgs b0 b1 := by
    unfold resolveArgs
    rw [← hkind]
    split
    next h0 =>
      obtain ⟨hfin, hopc, rfl⟩ := hsynth (BitVec.eq_of_toNat_eq h0)
      rw [hfin, hopc]
    next h1 => rw [htext (BitVec.eq_of_toNat_eq h1)]
    next h2 =>
      obtain ⟨hfin, hfirst, rfl⟩ := hbinary (BitVec.eq_of_toNat_eq h2)
      rw [hfin, hfirst]
    next h3 =>
      obtain ⟨hcodev, hcode⟩ := hclose (BitVec.eq_of_toNat_eq h3)
      rw [← hcodev, closePayload_congr hcode]
    next => rfl
    next h0 h1 h2 h3 h4 =>
      simp only [imp_false] at h0 h1 h2 h3 h4
      have h5 : (kindOf a0).toNat = 5 := by omega
      rw [hpong (BitVec.eq_of_toNat_eq h5)]
  have hopc (h0 : kindOf a0 = 0) : opcOf a0 = opcOf b0 := by
    obtain ⟨-, hopc, -⟩ := hsynth h0
    exact hopc
  have hcode (h3 : kindOf a0 = 3) : codevOf a0 = codevOf b0 ∧ (codevOf a0 = true → codeOf a0 = codeOf b0) := by
    obtain ⟨hcodev, hcode⟩ := hclose h3
    exact ⟨hcodev, fun hv => (hcode hv).left⟩
  have hresolve : resolve m a0 a1 = resolve m b0 b1 := resolve_congr ha hb hkind hmasked hopc hcode hargs
  exact ⟨hresolve, frame_congr hresolve⟩

/-! ### Header byte 1 and the extended length, read back (R93, R97) -/

theorem len7_lt (pl : Nat) : len7 pl < 128 := by
  unfold len7
  split
  · omega
  · split <;> decide

theorem byte1_getLsbD_seven (mask : Bool) (pl : Nat) : (byte1 mask pl).getLsbD 7 = mask := by
  have hlen : (BitVec.ofNat 8 (len7 pl)).getLsbD 7 = false := by
    rw [BitVec.getLsbD_ofNat, Nat.testBit_lt_two_pow (show len7 pl < 2 ^ 7 from len7_lt pl), Bool.and_false]
  rw [byte1, BitVec.getLsbD_or, hlen]
  cases mask <;> rfl

/-- The seven low bits of header byte 1 are `Len7(PL)`, masked or not. -/
theorem byte1_length (mask : Bool) (pl : Nat) : ((byte1 mask pl).extractLsb' 0 7).toNat = len7 pl := by
  have hflag : (if mask then 0x80#8 else 0x00#8).extractLsb' 0 7 = 0 := by cases mask <;> rfl
  have hlen := len7_lt pl
  rw [byte1, BitVec.extractLsb'_or, hflag, BitVec.ofNat_eq_ofNat, BitVec.zero_or]
  simp only [BitVec.extractLsb'_toNat, BitVec.toNat_ofNat, Nat.shiftRight_zero]
  omega

/-- Settles O45: byte 1 of the header is `Byte1`, whose bits 6 to 0 are `Len7`. -/
theorem headerByte1 : Obligations.HeaderByte1 := by
  intro fin opc key pl
  refine ⟨byte1 key.isSome pl, rfl, byte1_getLsbD_seven _ _, ?_⟩
  rw [byte1_length, len7]
  refine ⟨fun h => if_pos h, fun h h' => ?_, fun h => ?_⟩
  · rw [if_neg (by omega), if_pos h']
  · rw [if_neg (by omega), if_neg (by omega)]

theorem beValue_be16 (n : BitVec 16) : beValue (be16 n) = n.toNat := by
  simp only [beValue, be16, List.foldl, BitVec.extractLsb'_toNat, Nat.shiftRight_eq_div_pow]
  omega

theorem beValue_be64 (n : BitVec 64) : beValue (be64 n) = n.toNat := by
  simp only [beValue, be64, List.foldl, BitVec.extractLsb'_toNat, Nat.shiftRight_eq_div_pow]
  omega

/-- The reader takes as many bytes for the extended length as the header has there. -/
theorem extOf_byte1 (mask : Bool) (pl : Nat) : extOf (byte1 mask pl) = (extLen pl).length := by
  rw [extOf, byte1_length, extLen_length, len7]
  split
  · simp [*]
  · split <;> simp

/-- The reader's number is the length, in each of the three regimes. -/
theorem lengthRead_eq {mask : Bool} {pl : Nat} (hpl : pl < 2 ^ 64) :
    (if (extLen pl).length = 0 then ((byte1 mask pl).extractLsb' 0 7).toNat else beValue (extLen pl)) = pl := by
  rw [byte1_length, extLen, len7]
  split
  · simp
  · split
    · rw [if_neg (by simp), beValue_be16, BitVec.toNat_ofNat]; omega
    · rw [if_neg (by simp), beValue_be64, BitVec.toNat_ofNat]; omega

/-- Settles O52: byte 1 tells the reader how many bytes of extended length follow, and those bytes are the length. -/
theorem headerSelfDelimiting : Obligations.HeaderSelfDelimiting := by
  intro fin opc key pl payload hpl
  have hheader : header fin opc key pl ++ payload =
      byte0 fin opc :: byte1 key.isSome pl :: (extLen pl ++ (keyBytes key ++ payload)) := by
    simp [header]
  rw [hheader, readLengths, extOf_byte1, byte1_getLsbD_seven, List.take_left, lengthRead_eq hpl, hLen,
    if_neg (by simp)]

/-! ### The builders as expansions into SYNTH (R102) -/

/-- A frame shows only the effective payload, not which of its bytes came from the descriptor and which from the source. -/
theorem frame_congr_payload {m : Nat} {a0 a1 b0 b1 : Word} {fin : Bool} {opc : BitVec 4} {mask : Bool}
    {pfx pfx' : List Byte} {n n' : Nat} {src src' : List Byte} (key : Key)
    (ha : resolve m a0 a1 = emitFrame m fin opc mask pfx n) (hb : resolve m b0 b1 = emitFrame m fin opc mask pfx' n')
    (hlen : pfx.length + n = pfx'.length + n') (hbytes : pfx ++ src.take n = pfx' ++ src'.take n') :
    frame m a0 a1 src key = frame m b0 b1 src' key := by
  rw [frame, frame, ha, hb]
  cases hx : exceeds m (pfx.length + n) with
  | true => rw [emitFrame_tooLong hx, emitFrame_tooLong (hlen ▸ hx)]
  | false => rw [emitFrame_ok hx, emitFrame_ok (hlen ▸ hx)]; simp only [hbytes]

section
variable (m : Nat) (masked : Bool) (len : Word)

theorem resolve_encode_synth (fin : Bool) {opc : BitVec 4} (hopc : validOpcode opc = true) :
    resolve m (encode (.synth fin masked opc len)).1 (encode (.synth fin masked opc len)).2 =
      emitFrame m fin opc masked [] len.toNat := by
  simp [encode, resolve_emitFrame, rsvdSet_pack, kindOf_pack, opcOf_pack, hopc, resolveArgs, finOf_pack, maskedOf_pack]

theorem resolve_encode_text :
    resolve m (encode (.text masked len)).1 (encode (.text masked len)).2 =
      emitFrame m true 1 masked [] len.toNat := by
  simp [encode, resolve_unchecked, rsvdSet_pack, kindOf_pack, resolveArgs, maskedOf_pack]

theorem resolve_encode_binary (fin first : Bool) :
    resolve m (encode (.binary masked fin first len)).1 (encode (.binary masked fin first len)).2 =
      emitFrame m fin (if first then 2 else 0) masked [] len.toNat := by
  simp [encode, resolve_unchecked, rsvdSet_pack, kindOf_pack, resolveArgs, finOf_pack, firstOf_pack, maskedOf_pack]

theorem resolve_encode_ping :
    resolve m (encode (.ping masked)).1 (encode (.ping masked)).2 = emitFrame m true 9 masked [] 0 := by
  simp [encode, resolve_unchecked, rsvdSet_pack, kindOf_pack, resolveArgs, maskedOf_pack]

theorem resolve_encode_pong :
    resolve m (encode (.pong masked len)).1 (encode (.pong masked len)).2 =
      emitFrame m true 10 masked [] len.toNat := by
  simp [encode, resolve_unchecked, rsvdSet_pack, kindOf_pack, resolveArgs, maskedOf_pack]

theorem resolve_encode_close_noCode :
    resolve m (encode (.close masked none len)).1 (encode (.close masked none len)).2 =
      emitFrame m true 8 masked [] 0 := by
  simp [encode, resolve_emitFrame, rsvdSet_pack, kindOf_pack, codevOf_pack, resolveArgs, closePayload_noCode,
    maskedOf_pack]

theorem resolve_encode_close_1005 :
    resolve m (encode (.close masked (some 1005) len)).1 (encode (.close masked (some 1005) len)).2 =
      emitFrame m true 8 masked [] 0 := by
  simp [encode, resolve_emitFrame, rsvdSet_pack, kindOf_pack, codeOf_pack, resolveArgs, closePayload_1005,
    maskedOf_pack]

theorem resolve_encode_close_code {code : BitVec 32} (hcode : code.toNat ≤ 65535) (h1005 : code.toNat ≠ 1005) :
    resolve m (encode (.close masked (some code) len)).1 (encode (.close masked (some code) len)).2 =
      emitFrame m true 8 masked (closeBytes code) len.toNat := by
  simp [encode, resolve_emitFrame, rsvdSet_pack, kindOf_pack, codevOf_pack, codeOf_pack, hcode, resolveArgs,
    closePayload_code, h1005, maskedOf_pack]

end

/-- The close code's two bytes are its two low bytes, the higher first (R154). -/
theorem closeBytes_eq (code : BitVec 32) : closeBytes code = [code.extractLsb' 8 8, code.extractLsb' 0 8] := by
  simp [closeBytes, be16, BitVec.extractLsb'_setWidth_of_le]

/-- Settles O57: both sides resolve to requests of one fin, opcode and masked flag, and of one effective payload; only in a
CLOSE with a code do two of its bytes come from the descriptor on one side and from the source on the other. -/
theorem buildersExpandToSynth : Obligations.BuildersExpandToSynth := by
  intro m masked fin first code len len2 src key
  refine ⟨?_, ?_, ?_, ?_, ?_, ?_, fun hcode h1005 hlen2 => ?_⟩
  · exact frame_congr_payload key (resolve_encode_text ..) (resolve_encode_synth m masked len true rfl) rfl rfl
  · have hopc : validOpcode (if first then 2 else 0) = true := by cases first <;> rfl
    exact frame_congr_payload key (resolve_encode_binary ..) (resolve_encode_synth m masked len fin hopc) rfl rfl
  · exact frame_congr_payload key (resolve_encode_ping ..) (resolve_encode_synth m masked 0 true rfl) rfl rfl
  · exact frame_congr_payload key (resolve_encode_pong ..) (resolve_encode_synth m masked len true rfl) rfl rfl
  · exact frame_congr_payload key (resolve_encode_close_noCode ..) (resolve_encode_synth m masked 0 true rfl) rfl rfl
  · exact frame_congr_payload key (resolve_encode_close_1005 ..) (resolve_encode_synth m masked 0 true rfl) rfl rfl
  · refine frame_congr_payload key (resolve_encode_close_code m masked len hcode h1005)
      (resolve_encode_synth m masked len2 true rfl) ?_ ?_
    · simp [hlen2]
    · simp [closeBytes_eq, hlen2, Nat.add_comm 2]

end Sys2Proof.Machine
end

section
/-!
PROOFS. Header synthesis (spec 40_header_synthesis.md): the bytes of the header (R121 to R131) and its length (R127, R129),
the masker (R134, R137), the frame (R141), the commands' own meanings (R143, R159), and that the sink holds the first
bytes of the one frame at every moment (R146).
-/

namespace Sys2Proof.Machine

/-! ### Header byte 0 (R121, R122) -/

/-- Bit 7 is the fin flag, bits 6 to 4 are clear, bits 3 to 0 are the opcode. -/
theorem byte0_eq_append (fin : Bool) (opc : BitVec 4) : byte0 fin opc = BitVec.ofBool fin ++ 0#3 ++ opc := by
  revert fin opc; decide

theorem byte0_toNat (fin : Bool) (opc : BitVec 4) : (byte0 fin opc).toNat = (if fin then 128 else 0) + opc.toNat := by
  revert fin opc; decide

/-- Settles O44: byte 0 of the header is `Byte0`, whose bits 6 to 4 lie between the fin flag and the opcode. -/
theorem headerByte0 : Obligations.HeaderByte0 := by
  intro fin opc key pl
  refine ⟨byte0 fin opc, rfl, byte0_toNat fin opc, ?_⟩
  simp only [byte0_eq_append, BitVec.getLsbD_append]
  simp

/-! ### The extended length (R125, R126, R128) -/

theorem extLen_be16 {pl : Nat} (hlo : 126 ≤ pl) (hhi : pl < 65536) : extLen pl = be16 (BitVec.ofNat 16 pl) := by
  rw [extLen, if_neg (by omega), if_pos hhi]

theorem extLen_be64 {pl : Nat} (h : 65536 ≤ pl) : extLen pl = be64 (BitVec.ofNat 64 pl) := by
  rw [extLen, if_neg (by omega), if_neg (by omega)]

/-- Settles O46: the extended length follows the two fixed bytes, and each regime's bytes stand for the length. -/
theorem extendedLengthExact : Obligations.ExtendedLengthExact := by
  intro fin opc key pl hpl
  refine ⟨by simp [header], fun h => by simp [extLen, h], fun hlo hhi => ?_, fun hlo => ?_⟩
  · rw [extLen_be16 hlo hhi, beValue_be16]
    exact ⟨rfl, Nat.mod_eq_of_lt hhi⟩
  · rw [extLen_be64 hlo, beValue_be64]
    exact ⟨rfl, Nat.mod_eq_of_lt hpl⟩

section
variable {n : BitVec 64} {half : BitVec 32}

/-- A byte of the quotient by `2^32` is the byte 32 bits higher. -/
theorem extractLsb'_div_two_pow (h : half.toNat = n.toNat / 2 ^ 32) (k : Nat) :
    n.extractLsb' (32 + k) 8 = half.extractLsb' k 8 := by
  apply BitVec.eq_of_toNat_eq
  rw [BitVec.extractLsb'_toNat, BitVec.extractLsb'_toNat, h, Nat.shiftRight_add, Nat.shiftRight_eq_div_pow n.toNat]

/-- A byte that lies below bit 32 is that of the remainder by `2^32`. -/
theorem extractLsb'_mod_two_pow (h : half.toNat = n.toNat % 2 ^ 32) {k : Nat} (hk : k + 8 ≤ 32) :
    n.extractLsb' k 8 = half.extractLsb' k 8 := by
  have hhalf : half = n.setWidth 32 := BitVec.eq_of_toNat_eq (h.trans (BitVec.toNat_setWidth ..).symm)
  rw [hhalf, BitVec.extractLsb'_setWidth_of_le hk]

end

/-- Settles O47: the four high bytes are the quotient's, the four low ones the remainder's. -/
theorem extendedLengthHalves : Obligations.ExtendedLengthHalves := by
  intro n hi lo hhi hlo
  have hhigh := extractLsb'_div_two_pow hhi
  simp only [be64, ← hhigh, ← extractLsb'_mod_two_pow hlo, Nat.reduceAdd, Nat.reduceLeDiff]

/-- Settles O49: byte 2 is the highest of the eight, and its bit 7 is bit 63 of a length below `2^63`. -/
theorem extendedLengthTopBitClear : Obligations.ExtendedLengthTopBitClear := by
  intro fin opc key pl hlo hhi
  have hbit : pl.testBit 63 = false := Nat.testBit_lt_two_pow (Nat.lt_of_le_of_lt hhi maxlen_lt_two_pow)
  exact ⟨(BitVec.ofNat 64 pl).extractLsb' 56 8, by simp [header, extLen_be64 hlo, be64], by
    rw [BitVec.getLsbD_extractLsb', BitVec.getLsbD_ofNat]; simp [hbit]⟩

/-! ### The header's length (R127, R129, R131) -/

/-- Settles O50: `HLen` counts the bytes that the header joins, and the extended length has 0, 2 or 8 of them by regime. -/
theorem headerLength : Obligations.HeaderLength :=
  fun fin opc key pl => ⟨header_length_hLen fin opc key pl, hLen_eq key.isSome pl⟩

/-- Reading `bytes` on from the number `v` multiplies `v + 1` at most by 256 for each byte. -/
theorem beValue_foldl_lt (bytes : List Byte) (v : Nat) :
    bytes.foldl (fun v b => 256 * v + b.toNat) v < (v + 1) * 256 ^ bytes.length := by
  induction bytes generalizing v with
  | nil => simp
  | cons b bs ih =>
    have hb : 256 * v + b.toNat + 1 ≤ (v + 1) * 256 := by have := b.isLt; omega
    calc bs.foldl (fun v b => 256 * v + b.toNat) (256 * v + b.toNat)
      _ < (256 * v + b.toNat + 1) * 256 ^ bs.length := ih _
      _ ≤ (v + 1) * 256 * 256 ^ bs.length := Nat.mul_le_mul_right _ hb
      _ = (v + 1) * 256 ^ (bs.length + 1) := by rw [Nat.pow_succ, Nat.mul_assoc, Nat.mul_comm 256]

theorem beValue_lt (bytes : List Byte) : beValue bytes < 256 ^ bytes.length := by
  have h := beValue_foldl_lt bytes 0
  rwa [Nat.zero_add, Nat.one_mul] at h

/-- The three regimes as header byte 1 announces them (R97). -/
theorem extOf_cases (b1 : Byte) :
    (extOf b1 = 0 ∧ (b1.extractLsb' 0 7).toNat < 126) ∨ extOf b1 = 2 ∨ extOf b1 = 8 := by
  unfold extOf
  split
  next h => exact .inl ⟨rfl, h⟩
  next => split <;> simp

/-- Where a reader gets lengths, the extended length is whole, and `HL` and `PL` are what R97 says. -/
theorem readLengths_some {b0 b1 : Byte} {rest : List Byte} {hl pl : Nat}
    (h : readLengths (b0 :: b1 :: rest) = some (hl, pl)) :
    extOf b1 ≤ rest.length ∧ hl = 2 + extOf b1 + (if b1.getLsbD 7 then 4 else 0) ∧
      pl = if extOf b1 = 0 then (b1.extractLsb' 0 7).toNat else beValue (rest.take (extOf b1)) := by
  rw [readLengths] at h
  split at h
  · cases h
  · cases h
    exact ⟨by omega, rfl, rfl⟩

/-- What a reader takes for the length needs no more bytes of extended length than the reader took (R97). -/
theorem extLen_length_le_extOf {b0 b1 : Byte} {rest : List Byte} {hl pl : Nat}
    (h : readLengths (b0 :: b1 :: rest) = some (hl, pl)) : (extLen pl).length ≤ extOf b1 := by
  obtain ⟨hwhole, -, hpl⟩ := readLengths_some h
  have hvalue := beValue_lt (rest.take (extOf b1))
  rw [List.length_take_of_le hwhole] at hvalue
  rw [extLen_length]
  obtain ⟨hext, hlow⟩ | hext | hext := extOf_cases b1 <;> rw [hext] at hpl hvalue ⊢
  · have hlt : pl < 126 := hpl.trans (if_pos rfl) ▸ hlow
    exact Nat.le_of_eq (if_pos hlt)
  · have hlt : pl < 65536 := hpl ▸ hvalue
    split <;> omega
  · split
    · omega
    · split <;> omega

/-- Settles O48: `Len7` names the regime the length lies in, and a reader takes a regime no smaller than the encoder's. -/
theorem headerMinimal : Obligations.HeaderMinimal := by
  refine fun pl => ⟨?_, ?_, fun b0 b1 rest hl hread => ?_⟩
  · unfold len7; split <;> omega
  · unfold len7
    split
    · omega
    · split <;> omega
  · obtain ⟨-, hhl, -⟩ := readLengths_some hread
    have hext := extLen_length_le_extOf hread
    rw [hhl, hLen]
    omega

/-- Settles O51: the four key bytes stand behind all the others, which are `HL - 4`. -/
theorem keyEndsHeader : Obligations.KeyEndsHeader := by
  intro fin opc key pl j hj
  have hbefore : hLen true pl - 4 = ([byte0 fin opc, byte1 true pl] ++ extLen pl).length := by
    simp [hLen]; omega
  rw [header, hbefore, Option.isSome_some, List.getElem?_append_right (by omega), Nat.add_sub_cancel_left]
  exact key_toList_getElem? key j hj

/-! ### The masker (R134, R137) -/

/-- Settles O53: the XOR stream from index 0 on takes the key byte that the index's remainder by 4 selects. -/
theorem maskBytesPointwise : Obligations.MaskBytesPointwise := by
  intro key p
  refine ⟨maskFrom_length key 0 p, fun i => ⟨?_, ?_⟩⟩
  · simpa [maskBytes] using maskFrom_getElem? key 0 p i
  · rw [← key_byte_mod]
    exact key_toList_getElem? key (i % 4) (Nat.mod_lt i (by decide))

theorem maskFrom_maskFrom (key : Key) (i : Nat) (p : List Byte) : maskFrom key i (maskFrom key i p) = p := by
  induction p generalizing i with
  | nil => rfl
  | cons b bs ih => rw [maskFrom, maskFrom, ih, BitVec.xor_assoc, BitVec.xor_self, BitVec.xor_zero]

theorem maskFrom_zero_key (i : Nat) (p : List Byte) : maskFrom ⟨0, 0, 0, 0⟩ i p = p := by
  have hbyte (j : Nat) : (⟨0, 0, 0, 0⟩ : Key).byte j = 0 := by unfold Key.byte; split <;> rfl
  induction p generalizing i with
  | nil => rfl
  | cons b bs ih => rw [maskFrom, hbyte, ih, BitVec.ofNat_eq_ofNat, BitVec.xor_zero]

/-- Byte `j` of the turned key is byte `r + j` of the key, for every `j` (R137). -/
theorem key_rot_byte (key : Key) (r j : Nat) : (key.rot r).byte j = key.byte (r + j) := by
  have hmod : key.byte (r + j) = key.byte (r + j % 4) := key_byte_congr key (by omega)
  rw [hmod]
  obtain hj | hj | hj | hj : j % 4 = 0 ∨ j % 4 = 1 ∨ j % 4 = 2 ∨ j % 4 = 3 := by omega
  all_goals simp [Key.byte, Key.rot, hj]

theorem maskFrom_rot (key : Key) (r i : Nat) (p : List Byte) : maskFrom (key.rot r) i p = maskFrom key (r + i) p := by
  induction p generalizing i with
  | nil => rfl
  | cons b bs ih => simp [maskFrom, ih, key_rot_byte, Nat.add_assoc]

theorem key_rot_mod (key : Key) (r : Nat) : key.rot (r % 4) = key.rot r := by
  simp [Key.rot, key_byte_congr key (Nat.mod_add_mod r 4 _)]

/-- Settles O54: the second part is masked from the first part's length on, as turning the key does. -/
theorem maskLaws : Obligations.MaskLaws := by
  intro key p q
  refine ⟨maskFrom_maskFrom key 0 p, maskFrom_zero_key 0 p, ?_, maskFrom_length key 0 p⟩
  rw [key_rot_mod, maskBytes, maskBytes, maskBytes, maskFrom_rot, maskFrom_append, Nat.add_comm]

/-! ### The frame (R141) -/

theorem frameOf_length (fin : Bool) (opc : BitVec 4) (key : Option Key) (p : List Byte) :
    (frameOf fin opc key p).length = hLen key.isSome p.length + p.length := by
  rw [frameOf, List.length_append, header_length_hLen, payloadPart_length]

/-- Behind the header of a frame stands its payload part. -/
theorem frameOf_drop_hLen (fin : Bool) (opc : BitVec 4) (key : Option Key) (p : List Byte) :
    (frameOf fin opc key p).drop (hLen key.isSome p.length) = payloadPart key p := by
  rw [frameOf, ← header_length_hLen fin opc key, List.drop_left]

/-- Settles O55: the masker keeps the length, and without a key the payload part is the payload. -/
theorem frameLength : Obligations.FrameLength := by
  intro fin opc key p
  refine ⟨frameOf_length fin opc key p, ?_⟩
  rintro rfl
  exact frameOf_drop_hLen fin opc none p

/-! ### The commands' own meanings (R143, R159, R171) -/

/-- Settles O6: a command is what its descriptor decodes to, and what decodes to it accepts what `Resolve` makes of it. -/
theorem execAgreesWithResolve : Obligations.ExecAgreesWithResolve :=
  fun i s => exec_of_decode (decodeOfEncode i) s

section
variable {s : State} {c : Command} {rest : List Command} {r : Request} {key : Option Key} {keys : List Key}

/-- With its key draw ready, an error-free request is accepted (R171). -/
theorem accept_draws (hphase : s.enc.phase = .idle) (hcmd : s.env.cmd = c :: rest)
    (hdraw : Draws r.mask s.env.keys key keys) : accept (.ok r) s = .next (s.startFrame r key c rest keys) := by
  obtain ⟨hmask, rfl, rfl⟩ | ⟨hmask, k, rfl, hkeys⟩ := hdraw
  · exact accept_unmasked hphase hcmd hmask
  · exact accept_masked hphase hcmd hmask hkeys

/-- An acceptance does to every register and port what R171 says, for every request that a descriptor resolves to. -/
theorem accepted_startFrame {cw0 cw1 : Word} (hr : resolve Config.maxlen cw0 cw1 = .ok r)
    (hkey : key.isSome = r.mask) : Accepted r key c rest keys s (s.startFrame r key c rest keys) where
  qFin   := rfl
  qOpc   := rfl
  qMask  := rfl
  qPl    := startFrame_qPl_toNat hr
  qPfxn  := startFrame_qPfxn_toNat hr
  qPfx   := fun b0 b1 hpfx => by simp [hpfx]
  qPfxOld := fun hpfx => by simp [hpfx]
  k      := rfl
  kv     := hkey
  hlen   := startFrame_hlen_toNat
  hbuf   := rfl
  hidx   := rfl
  pidx   := rfl
  status := rfl
  detail := rfl
  rHlen  := toNat_hLen ..
  rFlen  := startFrame_rFlen_toNat hr
  phase  := rfl
  cmd    := rfl
  keys   := rfl
  fout   := rfl
  sink   := rfl
  line   := rfl
  inputs := rfl
  pin    := memory_read_ofBytes c.src
  pinWf  := memory_wf_ofBytes c.src

/-- A command whose descriptor resolves to `r` completes as the acceptance of `r`, its key draw ready (R159, R171). -/
theorem exec_accepted {i : Instr} (hr : resolve Config.maxlen (encode i).1 (encode i).2 = .ok r)
    (hphase : s.enc.phase = .idle) (hcmd : s.env.cmd = c :: rest) (hdraw : Draws r.mask s.env.keys key keys) :
    ∃ t, exec i s = .next t ∧ Accepted r key c rest keys s t := by
  refine ⟨s.startFrame r key c rest keys, ?_, accepted_startFrame hr (draws_isSome hdraw)⟩
  rw [execAgreesWithResolve, hr, accept_draws hphase hcmd hdraw]

end

/-- Settles O9: a defined opcode and a length within `MAXLEN` pass every test of `Resolve`. -/
theorem synthAccepted : Obligations.SynthAccepted := by
  intro s fin masked opc len c rest key keys hphase hcmd hdraw hopc hlen
  have hfits : exceeds Config.maxlen (([] : List Byte).length + len.toNat) = false := by
    simpa [exceeds_maxlen_false_iff] using hlen
  have hr := (resolve_encode_synth Config.maxlen masked len fin ((validOpcode_iff opc).mpr hopc)).trans (emitFrame_ok hfits)
  exact exec_accepted hr hphase hcmd hdraw

/-! ### The sink holds the first bytes of the one frame (R146) -/

theorem cellsFrom_append (j : Nat) (f g : List Byte) :
    cellsFrom j (f ++ g) = cellsFrom j f ++ cellsFrom (j + f.length) g := by
  induction f generalizing j with
  | nil => rfl
  | cons b bs ih => simp [cellsFrom, ih, Nat.add_assoc, Nat.add_comm 1]

/-- One more byte of a frame is one more cell at the sink, with the byte's index. -/
theorem cellsFrom_take_succ {f : List Byte} {n : Nat} {b : Byte} (h : f[n]? = some b) :
    cellsFrom 0 (f.take (n + 1)) = cellsFrom 0 (f.take n) ++ [(n, b)] := by
  have hn : n < f.length := (List.getElem?_eq_some_iff.mp h).1
  rw [List.take_add_one, h, Option.toList_some, cellsFrom_append, List.length_take_of_le (Nat.le_of_lt hn), Nat.zero_add]
  rfl

/-- The frame of the registers in flight, for a payload `p` (R140). -/
def Encoder.frame (e : Encoder) (p : List Byte) : List Byte := frameOf e.qFin e.qOpc e.k p

section
variable {e : Encoder} {p : List Byte} (h : FrameInFlight e) (hp : p.length = e.qPl.toNat)
include h hp

/-- `HBUF` is the header of the frame in flight (R24). -/
theorem encoder_frame_eq : e.frame p = e.hbuf ++ payloadPart e.k p := by
  rw [Encoder.frame, frameOf, hp, h.hbuf]

theorem encoder_frame_length : (e.frame p).length = e.rFlen.toNat := by
  rw [encoder_frame_eq h hp, List.length_append, payloadPart_length, hp, h.hbufLen, h.rFlen]

/-- What EMIT_HDR reads from `HBUF` is the frame's byte at that index (R173). -/
theorem encoder_frame_hdr {j : Nat} {b : Byte} (hb : e.hbufAt j = some b) : (e.frame p)[j]? = some b := by
  unfold Encoder.hbufAt at hb
  split at hb
  · rw [encoder_frame_eq h hp, List.getElem?_append_left (by rwa [h.hbufLen]), hb]
  · cases hb

/-- A payload byte as it goes out is the frame's byte `HLEN + PIDX` (R174). -/
theorem encoder_frame_pay {b m : Byte} (hb : p[e.pidx.toNat]? = some b) (hm : e.maskByte b = some m) :
    (e.frame p)[e.hlen.toNat + e.pidx.toNat]? = some m := by
  rw [encoder_frame_eq h hp, ← h.hbufLen, List.getElem?_append_right (Nat.le_add_right ..), Nat.add_sub_cancel_left,
    payloadPart_getElem?, hb, ← hm]
  have hkv := h.key
  unfold Encoder.maskByte
  rw [← hkv, Encoder.kv]
  cases e.k <;> rfl

end

/-- The frame ends with the byte at `R_FLEN - 1` (R176): EMIT_HDR's case, where the payload is empty. -/
theorem framePos_afterHdr_complete {s : State} (h : Inv s) (hphase : s.enc.phase = .hdr)
    (hbusy : s.enc.afterHdr.busy = false) : framePos s.enc + 1 = s.enc.rFlen.toNat := by
  have hidx := (h.hdr hphase).1
  have hrFlen := (h.flight (.inl hphase)).rFlen
  rw [framePos_of_hdr hphase]
  obtain ⟨-, hafter⟩ | ⟨-, -, hafter⟩ | ⟨hlast, hempty, -⟩ := afterHdr_cases s.enc
  · simp [hafter, Encoder.busy, hphase] at hbusy
  · simp [hafter, Encoder.busy] at hbusy
  · omega

/-- The frame ends with the byte at `R_FLEN - 1` (R176): EMIT_PAY's case. -/
theorem framePos_afterPay_complete {s : State} (h : Inv s) (hphase : s.enc.phase = .pay)
    (hbusy : s.enc.afterPay.busy = false) : framePos s.enc + 1 = s.enc.rFlen.toNat := by
  have hpidx := h.pay hphase
  have hrFlen := (h.flight (.inr hphase)).rFlen
  rw [framePos_of_pay hphase]
  obtain ⟨-, hafter⟩ | ⟨hlast, -⟩ := afterPay_cases s.enc
  · simp [hafter, Encoder.busy, hphase] at hbusy
  · omega

/-- From `u` to `t` the next byte of frame `f` goes out: the index moves on by one, or the byte was the frame's last. -/
structure NextByteOut (f : List Byte) (u t : State) (b : Byte) : Prop where
  byte : f[framePos u.enc]? = some b
  fout : t.env.fout = u.env.fout ++ [(framePos u.enc, b)]
  next : t.enc.busy = true → framePos t.enc = framePos u.enc + 1
  last : t.enc.busy = false → framePos u.enc + 1 = f.length

section
variable {u t : State} {p : List Byte} (h : Inv u) (hp : p.length = u.enc.qPl.toNat)
include h hp

theorem emitHdr_nextByteOut (hphase : u.enc.phase = .hdr) (hstep : emitHdr u = .next t) :
    t = u ∨ ∃ b, NextByteOut (u.enc.frame p) u t b := by
  have hflight := h.flight (.inl hphase)
  obtain ⟨-, rfl⟩ | ⟨-, b, hb, rfl⟩ := emitHdr_next hstep
  · exact .inl rfl
  refine .inr ⟨b, ?_, ?_, framePos_afterHdr h hphase, fun hbusy => ?_⟩
  · rw [framePos_of_hdr hphase]; exact encoder_frame_hdr hflight hp hb
  · rw [framePos_of_hdr hphase]; rfl
  · rw [encoder_frame_length hflight hp]; exact framePos_afterHdr_complete h hphase hbusy

theorem emitPay_nextByteOut (hphase : u.enc.phase = .pay) (hstep : emitPay u = .next t)
    (hsource : ∀ (i : Nat) (b : Byte), u.payByte i = .byte b → i < p.length → p[i]? = some b) :
    t = u ∨ ∃ b, NextByteOut (u.enc.frame p) u t b := by
  have hflight := h.flight (.inr hphase)
  obtain ⟨-, rfl⟩ | ⟨-, rfl⟩ | ⟨-, b, m, hb, hm, rfl⟩ := emitPay_next hstep
  · exact .inl rfl
  · exact .inl rfl
  have hpayload : p[u.enc.pidx.toNat]? = some b := hsource _ b hb (hp ▸ h.pay hphase)
  refine .inr ⟨m, ?_, ?_, framePos_afterPay hphase, fun hbusy => ?_⟩
  · rw [framePos_of_pay hphase]; exact encoder_frame_pay hflight hp hpayload hm
  · rw [framePos_of_pay hphase]; rfl
  · rw [encoder_frame_length hflight hp]; exact framePos_afterPay_complete h hphase hbusy

end

/-- A sink that holds a frame up to the encoder's place holds it up to the new place once the next byte is out. -/
theorem fout_of_nextByteOut {f : List Byte} {u t : State} {b : Byte} {base : List Host.Cell} (h : NextByteOut f u t b)
    (hfout : u.env.fout = base ++ cellsFrom 0 (f.take (framePos u.enc))) :
    (t.enc.busy = true ∧ t.env.fout = base ++ cellsFrom 0 (f.take (framePos t.enc))) ∨
      (t.enc.busy = false ∧ t.env.fout = base ++ cellsFrom 0 f) := by
  have hfout' : t.env.fout = base ++ cellsFrom 0 (f.take (framePos u.enc + 1)) := by
    rw [h.fout, hfout, cellsFrom_take_succ h.byte, List.append_assoc]
  cases hbusy : t.enc.busy with
  | true => exact .inl ⟨rfl, h.next hbusy ▸ hfout'⟩
  | false => exact .inr ⟨rfl, by rwa [h.last hbusy, List.take_length] at hfout'⟩

/-- Settles O42: in flight a step without RESET is a hold, or puts out the frame's next byte. -/
theorem framePrefixKept : Obligations.FramePrefixKept := by
  intro s t base p h hbusy hline hp hsource hfout hstep
  have hmoved := inv_takeInputs h
  have hsteps := step_next hstep
  rw [← takeInputs_enc s] at hbusy hp hfout hsteps ⊢
  have hnext : t = s.takeInputs ∨ ∃ b, NextByteOut (s.takeInputs.enc.frame p) s.takeInputs t b := by
    obtain ⟨hreset, -⟩ | ⟨-, ⟨hphase, -⟩ | ⟨hphase, hhdr⟩ | ⟨hphase, hpay⟩⟩ := hsteps
    · simp [hline] at hreset
    · exact absurd hphase ((busy_iff _).mp hbusy)
    · exact emitHdr_nextByteOut hmoved hp hphase hhdr
    · exact emitPay_nextByteOut hmoved hp hphase hpay hsource
  obtain rfl | ⟨b, hout⟩ := hnext
  · exact .inl ⟨hbusy, hfout⟩
  · exact fout_of_nextByteOut hout hfout

end Sys2Proof.Machine
end

section
/-!
PROOFS. The frame builders (spec 41_frame_builders.md): each command whose payload fits completes as the acceptance of its
own request (R151 to R157, R171), and the bytes of a close frame (R154, R135).
-/

namespace Sys2Proof.Machine

/-! ### Every builder completes (R150, R171) -/

section
variable {s : State} {c : Command} {rest : List Command} {key : Option Key} {keys : List Key}

/-- A command that hands `(fin, opc, pfx, n)` to `EmitFrame` completes as the acceptance of that request, if the payload is
within `MAXLEN` and the key draw ready. -/
theorem exec_accepted_of_fits {i : Instr} {fin : Bool} {opc : BitVec 4} {mask : Bool} {pfx : List Byte} {n : Nat}
    (hr : resolve Config.maxlen (encode i).1 (encode i).2 = emitFrame Config.maxlen fin opc mask pfx n)
    (hfits : pfx.length + n ≤ Config.maxlen) (hphase : s.enc.phase = .idle) (hcmd : s.env.cmd = c :: rest)
    (hdraw : Draws mask s.env.keys key keys) :
    ∃ t, exec i s = .next t ∧ Accepted ⟨fin, opc, mask, pfx, n⟩ key c rest keys s t :=
  exec_accepted (hr.trans (emitFrame_ok ((exceeds_maxlen_false_iff _).mpr hfits))) hphase hcmd hdraw

end

/-- Settles O10: TEXT resolves to a final frame of opcode 1 with `LEN` source bytes. -/
theorem textAccepted : Obligations.TextAccepted := by
  intro s masked len c rest key keys hphase hcmd hdraw hlen
  exact exec_accepted_of_fits (resolve_encode_text ..) (by simpa using hlen) hphase hcmd hdraw

/-- Settles O11: BINARY resolves to a frame of its own fin flag, its opcode told by the first flag. -/
theorem binaryAccepted : Obligations.BinaryAccepted := by
  intro s masked fin first len c rest key keys hphase hcmd hdraw hlen
  exact exec_accepted_of_fits (resolve_encode_binary ..) (by simpa using hlen) hphase hcmd hdraw

/-- Settles O12: CLOSE with a code that can be sent resolves to a frame whose prefix is the code's two low bytes. -/
theorem closeWithCodeAccepted : Obligations.CloseWithCodeAccepted := by
  intro s masked code len c rest key keys hphase hcmd hdraw hcode h1005 hlen
  rw [← closeBytes_eq]
  exact exec_accepted_of_fits (resolve_encode_close_code _ _ _ hcode h1005) hlen hphase hcmd hdraw

/-- Settles O13: in both cases CLOSE resolves to a frame with no payload, which every `MAXLEN` admits. -/
theorem closeEmptyAccepted : Obligations.CloseEmptyAccepted := by
  rintro s masked code len c rest key keys hphase hcmd hdraw (rfl | rfl)
  · exact exec_accepted_of_fits (resolve_encode_close_noCode ..) (by simp) hphase hcmd hdraw
  · exact exec_accepted_of_fits (resolve_encode_close_1005 ..) (by simp) hphase hcmd hdraw

/-- Settles O14: PING resolves to a frame with no payload, which every `MAXLEN` admits. -/
theorem pingAccepted : Obligations.PingAccepted := by
  intro s masked c rest key keys hphase hcmd hdraw
  exact exec_accepted_of_fits (resolve_encode_ping ..) (by simp) hphase hcmd hdraw

/-- Settles O15: PONG resolves to a final frame of opcode 10 with `LEN` source bytes. -/
theorem pongAccepted : Obligations.PongAccepted := by
  intro s masked len c rest key keys hphase hcmd hdraw hlen
  exact exec_accepted_of_fits (resolve_encode_pong ..) (by simpa using hlen) hphase hcmd hdraw

/-! ### The close frame (R135, R154) -/

/-- With a code that can be sent and a reason that fits, the frame of CLOSE is a final frame of opcode 8 whose payload is the
code's two bytes and the reason (R153, R154). -/
theorem frame_close_code {m : Nat} {code : BitVec 32} {len : Word} {src : List Byte} (masked : Bool) (key : Key)
    (hlo : Config.minMaxlen ≤ m) (hhi : m ≤ Config.maxMaxlen) (hcode : code.toNat ≤ 65535)
    (h1005 : code.toNat ≠ 1005) (hsrc : src.length = len.toNat) (hfits : 2 + len.toNat ≤ m) :
    frame m (encode (.close masked (some code) len)).1 (encode (.close masked (some code) len)).2 src key =
      .ok (frameOf true 8 (if masked then some key else none) (closeBytes code ++ src)) := by
  have hx : exceeds m ((closeBytes code).length + len.toNat) = false := by
    rw [← Bool.not_eq_true, exceeds_iff hlo hhi]
    exact Nat.not_lt.mpr hfits
  have hr := (resolve_encode_close_code m masked len hcode h1005).trans (emitFrame_ok hx)
  rw [frame_ok hr, List.take_of_length_le (Nat.le_of_eq hsrc)]

/-- Byte `i` behind the header of a masked frame is payload byte `i` under its key byte (R134, R140). -/
theorem frameOf_masked_getElem? (fin : Bool) (opc : BitVec 4) (key : Key) (p : List Byte) (i : Nat) :
    (frameOf fin opc (some key) p)[hLen true p.length + i]? = p[i]?.map (· ^^^ key.byte i) := by
  rw [← List.getElem?_drop, ← Option.isSome_some (a := key), frameOf_drop_hLen, payloadPart_getElem?]

/-- Settles O56: the payload starts with the code at index 0, so the reason starts at index 2, also for the masker. -/
theorem closeFrameLayout : Obligations.CloseFrameLayout := by
  intro m masked code len src key hlo hhi hcode h1005 hsrc hfits
  have hframe := frame_close_code masked key hlo hhi hcode h1005 hsrc hfits
  have hlen : 2 + len.toNat = (closeBytes code ++ src).length := by simp [hsrc]
  rw [closeBytes_eq] at hframe hlen
  refine ⟨_, hframe, ?_, ?_, ?_⟩ <;> rw [hlen]
  · rw [frameOf_length]
    cases masked <;> rfl
  · rintro rfl
    exact frameOf_drop_hLen true 8 none _
  · rintro rfl
    have hbyte := frameOf_masked_getElem? true 8 key ([code.extractLsb' 8 8, code.extractLsb' 0 8] ++ src)
    refine ⟨hbyte 0, hbyte 1, fun j => ?_⟩
    rw [key_byte_mod, Nat.add_assoc, Nat.add_comm 2 j]
    exact hbyte (j + 2)

end Sys2Proof.Machine
end

section
/-!
PROOFS. The serial steps (spec 42_serial_sequencing.md): what each step does from every state that enables it (R171 to R177),
that there are no others (R170, R181), and that a command's steps put out the frame of the value level (R178).
-/

namespace Sys2Proof.Machine

/-! ### ACCEPT (R171, R172) -/

section
variable {s u : State} {c : Command} {rest : List Command} (hu : s.takeInputs = u) (hline : u.env.resetLine = false)
  (hphase : u.enc.phase = .idle) (hcmd : u.env.cmd = c :: rest)
include hu hline hphase hcmd

/-- In `IDLE`, with reset released, the step accepts what the presented descriptor resolves to. -/
theorem step_eq_accept : step s = accept (resolve Config.maxlen c.cw0 c.cw1) u := by
  subst hu
  rw [step_idle hline (takeInputs_enc s ▸ hphase), stepIdle_cons hcmd]

/-- With its key draw ready, a command that resolves to a request is accepted in the next step. -/
theorem step_accepts {r : Request} {key : Option Key} {keys : List Key}
    (hr : resolve Config.maxlen c.cw0 c.cw1 = .ok r) (hdraw : Draws r.mask u.env.keys key keys) :
    step s = .next (u.startFrame r key c rest keys) := by
  rw [step_eq_accept hu hline hphase hcmd, hr, accept_draws hphase hcmd hdraw]

theorem step_refuses {cause : Cause} (hr : resolve Config.maxlen c.cw0 c.cw1 = .error cause) :
    step s = .next (u.takeError cause rest) := by
  rw [step_eq_accept hu hline hphase hcmd, hr, accept_error hphase hcmd]

end

/-- Settles O7: the step is the acceptance of what the descriptor resolves to. -/
theorem stepAcceptsRequest : Obligations.StepAcceptsRequest :=
  fun _ _ _ _ _ _ hline hphase hcmd hr hdraw =>
    ⟨_, step_accepts rfl hline hphase hcmd hr hdraw, (accepted_startFrame hr (draws_isSome hdraw)).toStarted⟩

/-- Settles O8: the step is the error entry with the cause the descriptor resolves to. -/
theorem stepRefusesCommand : Obligations.StepRefusesCommand :=
  fun _ _ _ _ hline hphase hcmd hr => ⟨_, step_refuses rfl hline hphase hcmd hr, rfl, rfl⟩

/-! ### EMIT_HDR and EMIT_PAY (R173 to R175) -/

/-- EMIT_HDR's register changes are the three of R173, each in its own case. -/
theorem hdrEmitted_afterHdr (u : State) (b : Byte) :
    HdrEmitted b u { u.emit u.enc.hidx.toNat b with enc := u.enc.afterHdr } := by
  refine ⟨rfl, ?_⟩
  obtain ⟨hlt, hafter⟩ | ⟨hle, hpl, hafter⟩ | ⟨hle, hpl, hafter⟩ := afterHdr_cases u.enc
  · exact ⟨fun _ => hafter, fun h => by omega, fun h => by omega⟩
  · exact ⟨fun h => by omega, fun _ _ => hafter, fun _ h => by omega⟩
  · exact ⟨fun h => by omega, fun _ h => by omega, fun _ _ => hafter⟩

/-- EMIT_PAY's register changes are the two of R174, each in its own case. -/
theorem payEmitted_afterPay (u : State) (m : Byte) :
    PayEmitted m u { u.emit (u.enc.hlen.toNat + u.enc.pidx.toNat) m with enc := u.enc.afterPay } := by
  refine ⟨rfl, ?_⟩
  obtain ⟨hlt, hafter⟩ | ⟨hle, hafter⟩ := afterPay_cases u.enc
  · exact ⟨fun _ => hafter, fun h => by omega⟩
  · exact ⟨fun h => by omega, fun _ => hafter⟩

/-- Settles O21: below `HLEN` the byte EMIT_HDR reads is the one that stands in `HBUF`. -/
theorem emitHdrStep : Obligations.EmitHdrStep := by
  intro s b hline hphase hsink hidx hb
  have hbuf : s.takeInputs.enc.hbufAt s.takeInputs.enc.hidx.toNat = some b := (if_pos hidx).trans hb
  refine ⟨_, ?_, hdrEmitted_afterHdr s.takeInputs b⟩
  rw [step_hdr hline (takeInputs_enc s ▸ hphase), emitHdr_emits hsink hbuf]

theorem maskByte_unmasked {e : Encoder} (hmask : e.qMask = false) (b : Byte) : e.maskByte b = some b := by
  simp [Encoder.maskByte, hmask]

theorem maskByte_masked {e : Encoder} {key : Key} (hmask : e.qMask = true) (hkey : e.k = some key) (b : Byte) :
    e.maskByte b = some (b ^^^ key.byte e.pidx.toNat) := by
  simp [Encoder.maskByte, hmask, hkey]

/-- EMIT_PAY with its payload byte there, whatever the masker makes of it. -/
theorem step_emitsPay {s : State} {b m : Byte} (hline : s.takeInputs.env.resetLine = false)
    (hphase : s.takeInputs.enc.phase = .pay) (hsink : s.takeInputs.env.sinkReady = true)
    (hb : s.takeInputs.payByte s.takeInputs.enc.pidx.toNat = .byte b) (hm : s.takeInputs.enc.maskByte b = some m) :
    ∃ t, step s = .next t ∧ PayEmitted m s.takeInputs t := by
  refine ⟨_, ?_, payEmitted_afterPay s.takeInputs m⟩
  rw [step_pay hline (takeInputs_enc s ▸ hphase), emitPay_emits hsink hb hm]

/-- Settles O22: the masker passes the byte, or takes the key byte of `PIDX mod 4`. -/
theorem emitPayStep : Obligations.EmitPayStep :=
  fun _ b hline hphase hsink hb =>
    ⟨fun hmask => step_emitsPay hline hphase hsink hb (maskByte_unmasked hmask b),
     fun _ hmask hkey => step_emitsPay hline hphase hsink hb (maskByte_masked hmask hkey b)⟩

/-- From `Q_PFXN` on, a payload byte is a source byte (R175). -/
theorem payByte_source {s : State} {i : Nat} (hi : s.enc.qPfxn.toNat ≤ i) (b : Byte) :
    s.payByte i = .byte b ↔ srcRead s.env (i - s.enc.qPfxn.toNat) = some b := by
  rw [State.payByte, if_neg (Nat.not_lt.mpr hi)]
  cases srcRead s.env (i - s.enc.qPfxn.toNat) <;> simp

/-- Below `Q_PFXN` a payload byte is a descriptor byte (R175). -/
theorem payByte_descriptor {s : State} {i : Nat} {b : Byte} (hi : i < s.enc.qPfxn.toNat) (hb : s.enc.qPfxAt i = some b) :
    s.payByte i = .byte b := by
  rw [State.payByte, if_pos hi, hb]

/-- Settles O23: `Q_PFXN` is where the source bytes begin. -/
theorem payloadByteSource : Obligations.PayloadByteSource := by
  intro s i
  constructor
  · intro hpfxn b
    simpa [hpfxn] using payByte_source (s := s) (i := i) (by simp [hpfxn]) b
  · intro hpfxn
    refine ⟨payByte_descriptor (by simp [hpfxn]) rfl, payByte_descriptor (by simp [hpfxn]) rfl, fun hi b => ?_⟩
    simpa [hpfxn] using payByte_source (s := s) (i := i) (by simpa [hpfxn] using hi) b

/-! ### Holds (R177, R180) -/

/-- A source byte that cannot be answered is one to wait for. -/
theorem payByte_wait {s : State} {i : Nat} (hi : s.enc.qPfxn.toNat ≤ i)
    (hsrc : srcRead s.env (i - s.enc.qPfxn.toNat) = none) : s.payByte i = .wait := by
  rw [State.payByte, if_neg (Nat.not_lt.mpr hi), hsrc]

/-- Settles O24: the phase enables one step, and what that step lacks in each hold makes it leave the state alone. -/
theorem heldStepChangesNothing : Obligations.HeldStepChangesNothing := by
  rintro s ⟨hline, hwhy⟩
  have henc := takeInputs_enc s
  obtain ⟨hphase, hcmd⟩ | ⟨hphase, hkeys, c, rest, r, hcmd, hr, hmask⟩ | ⟨hphase, hsink⟩ | ⟨hphase, hsink⟩ |
    ⟨hphase, hpidx, hsrc⟩ := hwhy
  · rw [step_idle hline (henc ▸ hphase), stepIdle_nil hcmd]
  · rw [step_eq_accept rfl hline hphase hcmd, hr, accept_noKey hphase hcmd hmask hkeys]
  · rw [step_hdr hline (henc ▸ hphase), emitHdr_held hsink]
  · rw [step_pay hline (henc ▸ hphase), emitPay_held hsink]
  · rw [step_pay hline (henc ▸ hphase), emitPay_waits (payByte_wait hpidx hsrc)]

/-- An emitting step moves the encoder on inside its frame, where only the phase and the indexes change, or completes the
frame (R173, R174, R176). -/
inductive Encoder.Advances (e : Encoder) : Encoder → Prop where
  | inFrame (phase : Phase) (hidx : BitVec 4) (pidx : BitVec 64) (busy : phase ≠ .idle) :
      Encoder.Advances e { e with phase, hidx, pidx }
  | completes : Encoder.Advances e e.complete

theorem afterHdr_advances {e : Encoder} (hphase : e.phase = .hdr) : e.Advances e.afterHdr := by
  obtain ⟨-, hafter⟩ | ⟨-, -, hafter⟩ | ⟨-, -, hafter⟩ := afterHdr_cases e <;> rw [hafter]
  · exact .inFrame e.phase (e.hidx + 1) e.pidx (by simp [hphase])
  · exact .inFrame .pay e.hidx e.pidx (by simp)
  · exact .completes

theorem afterPay_advances {e : Encoder} (hphase : e.phase = .pay) : e.Advances e.afterPay := by
  obtain ⟨-, hafter⟩ | ⟨-, hafter⟩ := afterPay_cases e <;> rw [hafter]
  · exact .inFrame e.phase e.hidx (e.pidx + 1) (by simp [hphase])
  · exact .completes

/-- No emitting step writes `RES` (R180). -/
theorem advances_result {e e' : Encoder} (h : e.Advances e') :
    e'.status = e.status ∧ e'.detail = e.detail ∧ e'.rHlen = e.rHlen ∧ e'.rFlen = e.rFlen := by
  cases h <;> exact ⟨rfl, rfl, rfl, rfl⟩

theorem advances_busy {e e' : Encoder} (h : e.Advances e') (hbusy : e'.busy = true) :
    ∃ phase hidx pidx, e' = { e with phase, hidx, pidx } := by
  cases h with
  | inFrame phase hidx pidx => exact ⟨phase, hidx, pidx, rfl⟩
  | completes => cases hbusy

theorem advances_idle {e e' : Encoder} (h : e.Advances e') (hbusy : e'.busy = false) : e' = e.complete := by
  cases h with
  | inFrame _ _ _ hphase => exact absurd (by simpa [Encoder.busy] using hbusy) hphase
  | completes => rfl

/-- Settles O25: in flight a step is a hold or emits a byte, and neither takes from `CMD` or writes `RES`. -/
theorem busyDescriptorWaits : Obligations.BusyDescriptorWaits := by
  intro s t hline hbusy hstep
  have hsteps := step_next hstep
  rw [← takeInputs_enc s] at hsteps
  obtain ⟨hreset, -⟩ | ⟨-, ⟨hphase, -⟩ | ⟨hphase, hhdr⟩ | ⟨hphase, hpay⟩⟩ := hsteps
  · simp [hline] at hreset
  · exact absurd hbusy (hphase ▸ by decide)
  · obtain ⟨-, rfl⟩ | ⟨-, b, -, rfl⟩ := emitHdr_next hhdr
    · exact ⟨rfl, rfl, rfl, rfl, rfl⟩
    · exact ⟨rfl, advances_result (afterHdr_advances hphase)⟩
  · obtain ⟨-, rfl⟩ | ⟨-, rfl⟩ | ⟨-, b, m, -, -, rfl⟩ := emitPay_next hpay
    · exact ⟨rfl, rfl, rfl, rfl, rfl⟩
    · exact ⟨rfl, rfl, rfl, rfl, rfl⟩
    · exact ⟨rfl, advances_result (afterPay_advances hphase)⟩

/-! ### The last byte (R176) -/

theorem inFlight_of_busy {s : State} (h : Inv s) (hbusy : s.enc.busy = true) :
    s.enc.phase = .hdr ∨ s.enc.phase = .pay := by
  cases hphase : s.enc.phase with
  | noValue => exact absurd hphase h.phase
  | idle => simp [Encoder.busy, hphase] at hbusy
  | hdr => exact .inl rfl
  | pay => exact .inr rfl

/-- The index of a frame still in flight lies below `R_FLEN`, so a step from the last byte's index has completed the frame. -/
theorem completes_iff_last {u t : State} (ht : Inv t) (hadvances : u.enc.Advances t.enc)
    (hlast : t.enc.busy = false → framePos u.enc + 1 = u.enc.rFlen.toNat)
    (hnext : t.enc.busy = true → framePos t.enc = framePos u.enc + 1) :
    t.enc.busy = false ↔ framePos u.enc + 1 = u.enc.rFlen.toNat := by
  refine ⟨hlast, fun heq => Bool.eq_false_iff.mpr fun hbusy => ?_⟩
  obtain ⟨-, -, -, hrFlen⟩ := advances_result hadvances
  have hlt := framePos_lt_rFlen ht (inFlight_of_busy ht hbusy)
  rw [hnext hbusy, hrFlen, heq] at hlt
  exact Nat.lt_irrefl _ hlt

/-- Settles O37: only the two emitting steps put a byte out, and a frame they leave in flight has an index below `R_FLEN`. -/
theorem busyFallsWithLastByte : Obligations.BusyFallsWithLastByte := by
  intro s t b h hstep hfout
  have hmoved := inv_takeInputs h
  have ht : Inv t := invKeptByStep s t h hstep
  refine ⟨?_, fun hbusy => ht.idle (by simpa [Encoder.busy] using hbusy)⟩
  obtain ⟨cmd, henv⟩ | ⟨c, rest, r, key, keys, -, -, -, rfl⟩ | ⟨-, -, ⟨hphase, henc⟩ | ⟨hphase, henc⟩⟩ := step_ports hstep
  · simp [henv] at hfout
  · simp at hfout
  · exact completes_iff_last ht (henc ▸ afterHdr_advances hphase) (henc ▸ framePos_afterHdr_complete hmoved hphase)
      (henc ▸ framePos_afterHdr hmoved hphase)
  · exact completes_iff_last ht (henc ▸ afterPay_advances hphase) (henc ▸ framePos_afterPay_complete hmoved hphase)
      (henc ▸ framePos_afterPay hphase)

/-! ### There are no other steps (R170, R181) -/

theorem stepsTo_stepIdle {u t : State} (hline : u.env.resetLine = false) (hphase : u.enc.phase = .idle)
    (hstep : stepIdle u = .next t) : StepsTo u t := by
  obtain ⟨ht, hcmd | ⟨c, rest, r, hcmd, hr, hmask, hkeys⟩⟩ | ⟨c, rest, cause, hcmd, hr, rfl⟩ |
    ⟨c, rest, r, key, keys, hcmd, hr, hdraw, rfl⟩ := stepIdle_next hphase hstep
  · exact .held ⟨hline, .inl ⟨hphase, hcmd⟩⟩ ht
  · exact .held ⟨hline, .inr (.inl ⟨hphase, hkeys, c, rest, r, hcmd, hr, hmask⟩)⟩ ht
  · exact .refuse hline hphase c rest hcmd cause hr ⟨rfl, rfl⟩
  · exact .accept hline hphase c rest hcmd r hr key keys hdraw (accepted_startFrame hr (draws_isSome hdraw))

theorem stepsTo_emitHdr {u t : State} (hline : u.env.resetLine = false) (hphase : u.enc.phase = .hdr)
    (hstep : emitHdr u = .next t) : StepsTo u t := by
  obtain ⟨hsink, ht⟩ | ⟨hsink, b, hb, rfl⟩ := emitHdr_next hstep
  · exact .held ⟨hline, .inr (.inr (.inl ⟨hphase, hsink⟩))⟩ ht
  · exact .emitHdr hline hphase hsink b hb (hdrEmitted_afterHdr u b)

/-- The only wait for a payload byte is for a source byte that cannot be answered. -/
theorem payByte_eq_wait {s : State} {i : Nat} (h : s.payByte i = .wait) :
    s.enc.qPfxn.toNat ≤ i ∧ srcRead s.env (i - s.enc.qPfxn.toNat) = none := by
  unfold State.payByte at h
  split at h
  next => split at h <;> cases h
  next hi =>
    split at h
    next => cases h
    next hsrc => exact ⟨Nat.le_of_not_lt hi, hsrc⟩

theorem stepsTo_emitPay {u t : State} (hline : u.env.resetLine = false) (hphase : u.enc.phase = .pay)
    (hstep : emitPay u = .next t) : StepsTo u t := by
  obtain ⟨hsink, ht⟩ | ⟨hwait, ht⟩ | ⟨hsink, b, m, hb, hm, rfl⟩ := emitPay_next hstep
  · exact .held ⟨hline, .inr (.inr (.inr (.inl ⟨hphase, hsink⟩)))⟩ ht
  · exact .held ⟨hline, .inr (.inr (.inr (.inr ⟨hphase, payByte_eq_wait hwait⟩)))⟩ ht
  · exact .emitPay hline hphase hsink b m hb hm (payEmitted_afterPay u m)

theorem stepsTo_of_step {s t : State} (hstep : step s = .next t) : StepsTo s.takeInputs t := by
  have hsteps := step_next hstep
  rw [← takeInputs_enc s] at hsteps
  obtain ⟨hline, ht⟩ | ⟨hline, ⟨hphase, hidle⟩ | ⟨hphase, hhdr⟩ | ⟨hphase, hpay⟩⟩ := hsteps
  · exact .reset hline ht
  · exact stepsTo_stepIdle hline hphase hidle
  · exact stepsTo_emitHdr hline hphase hhdr
  · exact stepsTo_emitPay hline hphase hpay

/-- `u` with other contents of `PIN`. -/
def State.withPin (m : Memory) (u : State) : State := { u with env := { u.env with pin := m } }

/-- The two states differ at most in `PIN`. -/
def EqualButPin (t t' : State) : Prop := t'.enc = t.enc ∧ { t'.env with pin := [] } = { t.env with pin := [] }

/-- ACCEPT does not read `PIN`: with other contents each of its outcomes has the same cause. -/
theorem stepIdle_withPin {u t : State} (m : Memory) (hphase : u.enc.phase = .idle) (hstep : stepIdle u = .next t) :
    ∃ t', stepIdle (u.withPin m) = .next t' ∧ EqualButPin t t' := by
  have hphase' : (u.withPin m).enc.phase = .idle := hphase
  have hcons {c : Command} {rest : List Command} (hcmd : u.env.cmd = c :: rest) :
      stepIdle (u.withPin m) = accept (resolve Config.maxlen c.cw0 c.cw1) (u.withPin m) := stepIdle_cons hcmd
  obtain ⟨rfl, hcmd | ⟨c, rest, r, hcmd, hr, hmask, hkeys⟩⟩ | ⟨c, rest, cause, hcmd, hr, rfl⟩ |
    ⟨c, rest, r, key, keys, hcmd, hr, hdraw, rfl⟩ := stepIdle_next hphase hstep
  · exact ⟨t.withPin m, stepIdle_nil hcmd, rfl, rfl⟩
  · exact ⟨t.withPin m, by rw [hcons hcmd, hr, accept_noKey hphase' hcmd hmask hkeys], rfl, rfl⟩
  · exact ⟨(u.withPin m).takeError cause rest, by rw [hcons hcmd, hr, accept_error hphase' hcmd], rfl, rfl⟩
  · exact ⟨(u.withPin m).startFrame r key c rest keys, by rw [hcons hcmd, hr, accept_draws hphase' hcmd hdraw], rfl, rfl⟩

theorem emitHdr_withPin {u t : State} (m : Memory) (hstep : emitHdr u = .next t) :
    ∃ t', emitHdr (u.withPin m) = .next t' ∧ EqualButPin t t' := by
  obtain ⟨hsink, rfl⟩ | ⟨hsink, b, hb, rfl⟩ := emitHdr_next hstep
  · exact ⟨_, emitHdr_held (s := t.withPin m) hsink, rfl, rfl⟩
  · exact ⟨_, emitHdr_emits (s := u.withPin m) hsink hb, rfl, rfl⟩

/-- `u` with a moment before it in which the environment makes no move. -/
def State.afterQuiet (u : State) : State := { u with env := { u.env with inputs := [] :: u.env.inputs } }

/-- So what is said of `step` can be said of `stepNow`. -/
theorem step_afterQuiet (u : State) : step u.afterQuiet = stepNow u := rfl

theorem stepNow_withPin {u t : State} (m : Memory) (hphase : u.enc.phase ≠ .pay) (hstep : stepNow u = .next t) :
    ∃ t', stepNow (u.withPin m) = .next t' ∧ EqualButPin t t' := by
  rw [← step_afterQuiet] at hstep ⊢
  obtain ⟨hline, rfl⟩ | ⟨hline, ⟨hidle, hnext⟩ | ⟨hhdr, hnext⟩ | ⟨hpay, -⟩⟩ := step_next hstep
  · exact ⟨_, step_reset (s := (u.withPin m).afterQuiet) hline, rfl, rfl⟩
  · rw [step_idle (s := (u.withPin m).afterQuiet) hline hidle]
    exact stepIdle_withPin (u := u) m hidle hnext
  · rw [step_hdr (s := (u.withPin m).afterQuiet) hline hhdr]
    exact emitHdr_withPin (u := u) m hnext
  · exact absurd hpay hphase

/-- Settles O29: what each phase's step can do is one of the named steps, and only EMIT_PAY reads `PIN`. -/
theorem stepClosure : Obligations.StepClosure :=
  ⟨fun s _ hstep => ⟨takeInputs_enc s, stepsTo_of_step hstep⟩, fun _ _ m hphase hstep => stepNow_withPin m hphase hstep⟩

/-! ### The steps of a command put out its frame (R178, R179) -/

theorem run_succ {s t : State} (n : Nat) (h : step s = .next t) :
    Host.Core.run core (n + 1) s = Host.Core.run core n t := by
  simp [Host.Core.run, core, h]

/-- Settles O43: the one step is the error entry, for `Frame` is an error exactly where `Resolve` is. -/
theorem runRefusesCommand : Obligations.RunRefusesCommand := by
  rintro s c rest k cause hphase ⟨-, hline, hinputs⟩ hcmd hframe
  have hr := (frame_error c.src k).mp hframe
  have hstep := step_refuses (takeInputs_nil hinputs) hline hphase hcmd hr
  exact ⟨_, run_succ 0 hstep, rfl, rfl, rfl, rfl, rfl, rfl, rfl, hphase⟩

/-- A frame of payload `p` is in flight with every hold lifted: the sink and the source answer at once. -/
structure Emitting (p : List Byte) (u : State) : Prop where
  inv    : Inv u
  busy   : u.enc.busy = true
  free   : Undisturbed u.env
  length : p.length = u.enc.qPl.toNat
  source : ∀ (i : Nat) (b : Byte), p[i]? = some b → u.payByte i = .byte b

/-- From `u` to `t` the next byte of the frame of `p` goes out; no other port changes, and the encoder has advanced. -/
def ByteEmitted (p : List Byte) (u t : State) : Prop :=
  ∃ b, NextByteOut (u.enc.frame p) u t b ∧ t.env = { u.env with fout := t.env.fout } ∧ u.enc.Advances t.enc

section
variable {p : List Byte} {u : State} (h : Emitting p u)
include h

theorem emitting_emitHdr (hphase : u.enc.phase = .hdr) : ∃ t, emitHdr u = .next t ∧ ByteEmitted p u t := by
  obtain ⟨hsink, -⟩ := h.free
  obtain ⟨hidx, -⟩ := h.inv.hdr hphase
  obtain ⟨b, hb⟩ := hbufAt_of_lt (h.inv.flight (.inl hphase)) hidx
  have hstep := emitHdr_emits hsink hb
  obtain heq | ⟨b', hout⟩ := emitHdr_nextByteOut h.inv h.length hphase hstep
  · simpa using congrArg (·.env.fout) heq
  · exact ⟨_, hstep, b', hout, rfl, afterHdr_advances hphase⟩

theorem emitting_emitPay (hphase : u.enc.phase = .pay) : ∃ t, emitPay u = .next t ∧ ByteEmitted p u t := by
  obtain ⟨hsink, -⟩ := h.free
  have hsource (i : Nat) (b : Byte) (hb : u.payByte i = .byte b) (hi : i < p.length) : p[i]? = some b := by
    have hp := List.getElem?_eq_getElem hi
    rw [hp, PayByte.byte.inj ((h.source i _ hp).symm.trans hb)]
  obtain ⟨b, hb⟩ : ∃ b, p[u.enc.pidx.toNat]? = some b := ⟨_, List.getElem?_eq_getElem (h.length ▸ h.inv.pay hphase)⟩
  obtain ⟨m, hm⟩ := maskByte_of_kv (h.inv.flight (.inr hphase)).key b
  have hstep := emitPay_emits hsink (h.source _ b hb) hm
  obtain heq | ⟨b', hout⟩ := emitPay_nextByteOut h.inv h.length hphase hstep hsource
  · simpa using congrArg (·.env.fout) heq
  · exact ⟨_, hstep, b', hout, rfl, afterPay_advances hphase⟩

/-- With every hold lifted, a step in flight puts a byte out. -/
theorem emitting_step : ∃ t, step u = .next t ∧ ByteEmitted p u t := by
  obtain ⟨-, hline, hinputs⟩ := h.free
  have hmoved := takeInputs_nil hinputs
  obtain hphase | hphase := inFlight_of_busy h.inv h.busy
  · rw [step_hdr (by rwa [hmoved]) hphase, hmoved]
    exact emitting_emitHdr h hphase
  · rw [step_pay (by rwa [hmoved]) hphase, hmoved]
    exact emitting_emitPay h hphase

end

/-- Where the encoder has moved on inside its frame, the same frame of the same payload is still in flight. -/
theorem emitting_inFrame {p : List Byte} {u t : State} (h : Emitting p u) (ht : Inv t) (hbusy : t.enc.busy = true)
    (henv : t.env = { u.env with fout := t.env.fout }) {phase : Phase} {hidx : BitVec 4} {pidx : BitVec 64}
    (henc : t.enc = { u.enc with phase, hidx, pidx }) : Emitting p t where
  inv    := ht
  busy   := hbusy
  free   := henv ▸ h.free
  length := henc ▸ h.length
  source := fun i b hb => by
    have hpin : t.env.pin = u.env.pin := by rw [henv]
    rw [← h.source i b hb, State.payByte, State.payByte, srcRead, srcRead, hpin, henc]
    rfl

/-- The registers `e` of a frame in flight once its last byte is out: only the phase, the indexes and `KV` have changed. -/
def FrameDone (e e' : Encoder) : Prop := ∃ hidx pidx, e' = { e.complete with hidx, pidx }

/-- The rest of the frame goes out, one byte a step, from the encoder's place to the end. -/
theorem emitting_run {p : List Byte} {n : Nat} {u : State} (h : Emitting p u)
    (hn : framePos u.enc + n = (u.enc.frame p).length) :
    ∃ t, Host.Core.run core n u = .next t ∧ FrameDone u.enc t.enc ∧
      t.env = { u.env with
        fout := u.env.fout ++ cellsFrom (framePos u.enc) ((u.enc.frame p).drop (framePos u.enc)) } := by
  induction n generalizing u with
  | zero =>
    have hflight := inFlight_of_busy h.inv h.busy
    have hlt := framePos_lt_rFlen h.inv hflight
    rw [← encoder_frame_length (h.inv.flight hflight) h.length] at hlt
    omega
  | succ n ih =>
    obtain ⟨u', hstep, b, hout, henv, hadvances⟩ := emitting_step h
    obtain ⟨hlt, hb⟩ := List.getElem?_eq_some_iff.mp hout.byte
    rw [run_succ n hstep, List.drop_eq_getElem_cons hlt, hb, cellsFrom]
    cases hbusy : u'.enc.busy with
    | false =>
      obtain rfl : n = 0 := by have := hout.last hbusy; omega
      refine ⟨u', rfl, ⟨u.enc.hidx, u.enc.pidx, advances_idle hadvances hbusy⟩, ?_⟩
      rw [henv, hout.fout, List.drop_of_length_le (Nat.le_of_eq (hout.last hbusy).symm)]
      rfl
    | true =>
      obtain ⟨phase, hidx, pidx, henc⟩ := advances_busy hadvances hbusy
      have hframe : u'.enc.frame p = u.enc.frame p := by rw [henc]; rfl
      have hu' := emitting_inFrame h (invKeptByStep u u' h.inv hstep) hbusy henv henc
      obtain ⟨t, hrun, ⟨hidx', pidx', hdone⟩, htenv⟩ := ih hu' (by rw [hframe, hout.next hbusy]; omega)
      refine ⟨t, hrun, ⟨hidx', pidx', by rw [hdone, henc]; rfl⟩, ?_⟩
      rw [htenv, hframe, hout.next hbusy, henv, hout.fout, List.append_assoc]
      rfl

/-- The effective payload of an accepted request (R140, R159): the descriptor's bytes, then the source's. -/
def Request.payload (r : Request) (src : List Byte) : List Byte := r.pfx ++ src.take r.n

theorem payload_length {r : Request} {src : List Byte} (hsrc : r.n ≤ src.length) : (r.payload src).length = r.pl := by
  rw [Request.payload, List.length_append, List.length_take_of_le hsrc, Request.pl]

section
variable {s : State} {c : Command} {rest : List Command} {r : Request} {key : Option Key} {keys : List Key}

/-- After ACCEPT the request's descriptor bytes stand in `Q_PFX` (R171). -/
theorem qPfxAt_startFrame {e : Encoder} (hr : resolve Config.maxlen c.cw0 c.cw1 = .ok r) {i : Nat} {b : Byte}
    (hb : r.pfx[i]? = some b) : (e.startFrame r key).qPfxAt i = some b := by
  obtain ⟨-, hpfx | ⟨b0, b1, hpfx⟩, -⟩ := resolve_ok hr
  · simp [hpfx] at hb
  · match i with
    | 0 => simpa [Encoder.qPfxAt, hpfx] using hb
    | 1 => simpa [Encoder.qPfxAt, hpfx] using hb
    | i + 2 => simp [hpfx] at hb

/-- After ACCEPT payload byte `i` is the request's (R175): the descriptor's in `Q_PFX`, the source's in `PIN`. -/
theorem payByte_startFrame (hr : resolve Config.maxlen c.cw0 c.cw1 = .ok r) {i : Nat} {b : Byte}
    (hb : (r.payload c.src)[i]? = some b) : (s.startFrame r key c rest keys).payByte i = .byte b := by
  have hpfxn : (s.startFrame r key c rest keys).enc.qPfxn.toNat = r.pfx.length := startFrame_qPfxn_toNat hr
  rw [Request.payload, List.getElem?_append] at hb
  split at hb
  next hi => exact payByte_descriptor (hpfxn ▸ hi) (qPfxAt_startFrame hr hb)
  next hi =>
    rw [payByte_source (hpfxn ▸ Nat.le_of_not_lt hi), hpfxn]
    rw [List.getElem?_take, Option.ite_none_right_eq_some] at hb
    obtain ⟨-, hsrc⟩ := hb
    exact (memory_read_ofBytes c.src _).trans hsrc

/-- An undisturbed acceptance begins the frame of the request's payload. -/
theorem emitting_startFrame (hr : resolve Config.maxlen c.cw0 c.cw1 = .ok r) (hkey : key.isSome = r.mask)
    (hfree : Undisturbed s.env) (hsrc : r.n ≤ c.src.length) :
    Emitting (r.payload c.src) (s.startFrame r key c rest keys) where
  inv    := inv_startFrame hr hkey c rest keys s
  busy   := rfl
  free   := hfree
  length := (payload_length hsrc).trans (startFrame_qPl_toNat hr).symm
  source := fun _ _ hb => payByte_startFrame hr hb

end

/-- The key of a draw is the one `Frame` uses, whichever key it is given where the request is unmasked (R140). -/
theorem draws_key {mask : Bool} {keys keys' : List Key} {key : Option Key} (h : Draws mask keys key keys') {k : Key}
    (hk : mask = true → key = some k) : (if mask then some k else none) = key := by
  obtain ⟨rfl, rfl, -⟩ | ⟨rfl, -⟩ := h
  · rfl
  · exact (hk rfl).symm

/-- Settles O41: the one step is the acceptance, which begins the frame of the request's payload; the run of its emitting
steps puts out all of it, from index 0 to the end. -/
theorem runEmitsFrame : Obligations.RunEmitsFrame := by
  intro s c rest r key keys hphase hfree hcmd hr hdraw hsrc
  have ⟨_, hline, hinputs⟩ := hfree
  have hstep := step_accepts (takeInputs_nil hinputs) hline hphase hcmd hr hdraw
  have hemitting := emitting_startFrame (rest := rest) (keys := keys) hr (draws_isSome hdraw) hfree hsrc
  have hlength : (frameOf r.fin r.opc key (r.payload c.src)).length = hLen r.mask r.pl + r.pl := by
    rw [frameOf_length, payload_length hsrc, draws_isSome hdraw]
  have hrFlen := (startFrame_rFlen_toNat (e := s.enc) (key := key) hr).trans hlength.symm
  obtain ⟨t, hrun, ⟨hidx, pidx, henc⟩, henv⟩ := emitting_run hemitting (Nat.zero_add _)
  refine ⟨frameOf r.fin r.opc key (r.payload c.src), t, fun k hk => ?_, hlength, ?_, ?_⟩
  · rw [frame_ok hr, draws_key hdraw hk]; rfl
  · rw [Nat.add_comm, run_succ _ hstep]; exact hrun
  rw [henc, henv]
  exact ⟨rfl, rfl, rfl, rfl, rfl, toNat_hLen .., hrFlen, rfl, rfl, memory_read_ofBytes c.src, hfree⟩

end Sys2Proof.Machine
end

section
/-!
PROOFS. Error results (spec 60_exceptions.md): the numbers of the causes (R196), which descriptor meets which cause (R191 to
R195), that the first cause in the order of R197 is the one reported, and what each refused command leaves (R198, R199).
-/

namespace Sys2Proof.Machine

/-- Settles O20: the two registers of each result, read out. -/
theorem errorCodeTable : Obligations.ErrorCodeTable :=
  ⟨⟨rfl, rfl⟩, ⟨rfl, rfl⟩, ⟨rfl, rfl⟩, ⟨rfl, rfl⟩, ⟨rfl, rfl⟩, ⟨rfl, rfl⟩⟩

/-! ### The causes (R191 to R195) -/

/-- The ten reserved wire opcodes are those that are not defined (R91, R98). -/
theorem validOpcode_false_iff (opc : BitVec 4) :
    validOpcode opc = false ↔ opc.toNat ∈ [3, 4, 5, 6, 7, 11, 12, 13, 14, 15] := by
  revert opc; decide

/-- The condition of each cause on the descriptor alone, whatever other cause the descriptor meets (R191 to R195). -/
def Meets (m : Nat) (cw0 cw1 : Word) : Cause → Prop
  | .rsvdBits => cw0 &&& 0xFFFFF080#64 ≠ 0
  | .badKind => (kindOf cw0).toNat = 6 ∨ (kindOf cw0).toNat = 7
  | .badOpcode => kindOf cw0 = 0 ∧ (opcOf cw0).toNat ∈ [3, 4, 5, 6, 7, 11, 12, 13, 14, 15]
  | .badCloseCode => kindOf cw0 = 3 ∧ codevOf cw0 = true ∧ 65535 < (codeOf cw0).toNat
  | .tooLong =>
    ((kindOf cw0 = 0 ∨ kindOf cw0 = 1 ∨ kindOf cw0 = 2 ∨ kindOf cw0 = 5) ∧ m < cw1.toNat) ∨
    (kindOf cw0 = 3 ∧ codevOf cw0 = true ∧ (codeOf cw0).toNat ≠ 1005 ∧ m < 2 + cw1.toNat)

section
variable {m : Nat} {cw0 cw1 : Word}

theorem meets_rsvdBits_iff : Meets m cw0 cw1 .rsvdBits ↔ rsvdSet cw0 = true := by
  simp [Meets, rsvdSet, rsvdMask]

theorem meets_badKind_iff : Meets m cw0 cw1 .badKind ↔ 6 ≤ (kindOf cw0).toNat := by
  have hlt := (kindOf cw0).isLt
  simp only [Meets]
  omega

/-- The length of a close payload exceeds `m` only where there is a code to send (R153, R195). -/
theorem lt_closePayload_iff (codev : Bool) (code : BitVec 32) (len : Nat) :
    m < (closePayload codev code len).1.length + (closePayload codev code len).2 ↔
      codev = true ∧ code.toNat ≠ 1005 ∧ m < 2 + len := by
  cases codev with
  | false => simp [closePayload_noCode]
  | true =>
    by_cases h1005 : code.toNat = 1005
    · simp [closePayload_1005, h1005]
    · simp [closePayload_code, h1005]

/-- For a `KIND` in the table the length `Resolve` tests is the effective payload's (R159, R195). -/
theorem meets_tooLong_iff (hkind : (kindOf cw0).toNat < 6) :
    Meets m cw0 cw1 .tooLong ↔ m < (resolveArgs cw0 cw1).2.2.1.length + (resolveArgs cw0 cw1).2.2.2 := by
  simp only [Meets, ← BitVec.toNat_inj, resolveArgs]
  split
  next h0 => simp [h0]
  next h1 => simp [h1]
  next h2 => simp [h2]
  next h3 => simp [h3, lt_closePayload_iff]
  next h4 => simp [h4]
  next h0 h1 h2 h3 h4 =>
    simp only [imp_false] at h0 h1 h2 h3 h4
    have h5 : (kindOf cw0).toNat = 5 := by omega
    simp [h5]

/-! ### `Resolve` reports the first cause met (R197) -/

theorem resolve_badOpcode (hrsvd : rsvdSet cw0 = false) (hkind : kindOf cw0 = 0)
    (hopc : validOpcode (opcOf cw0) = false) : resolve m cw0 cw1 = .error .badOpcode := by
  simp [resolve, hrsvd, hkind, hopc]

theorem resolve_badCloseCode (hrsvd : rsvdSet cw0 = false) (hkind : kindOf cw0 = 3) (hcodev : codevOf cw0 = true)
    (hcode : 65535 < (codeOf cw0).toNat) : resolve m cw0 cw1 = .error .badCloseCode := by
  simp [resolve, hrsvd, hkind, hcodev, hcode]

/-- A descriptor that meets none of the first four causes is only tested for its length (R159, R195). -/
theorem resolve_of_not_meets (hrsvd : ¬Meets m cw0 cw1 .rsvdBits) (hkind : ¬Meets m cw0 cw1 .badKind)
    (hopc : ¬Meets m cw0 cw1 .badOpcode) (hcode : ¬Meets m cw0 cw1 .badCloseCode) :
    resolve m cw0 cw1 = emitFrame m (resolveArgs cw0 cw1).1 (resolveArgs cw0 cw1).2.1 (maskedOf cw0)
      (resolveArgs cw0 cw1).2.2.1 (resolveArgs cw0 cw1).2.2.2 := by
  rw [meets_rsvdBits_iff, Bool.not_eq_true] at hrsvd
  rw [meets_badKind_iff, Nat.not_le] at hkind
  refine resolve_emitFrame hrsvd hkind (fun h0 => ?_) (fun h3 hcodev => ?_)
  · rw [← Bool.not_eq_false, validOpcode_false_iff]
    exact fun hmem => hopc ⟨BitVec.eq_of_toNat_eq h0, hmem⟩
  · exact Nat.le_of_not_lt fun hlt => hcode ⟨BitVec.eq_of_toNat_eq h3, hcodev, hlt⟩

end

/-- The resolution `res` reports the first of the causes that `P` holds of, and is a request where it holds of none: the
order of R197. -/
inductive FirstCause (P : Cause → Prop) : Except Cause Request → Prop where
  | rsvdBits (h : P .rsvdBits) : FirstCause P (.error .rsvdBits)
  | badKind (hrsvd : ¬P .rsvdBits) (h : P .badKind) : FirstCause P (.error .badKind)
  | badOpcode (hrsvd : ¬P .rsvdBits) (hkind : ¬P .badKind) (h : P .badOpcode) : FirstCause P (.error .badOpcode)
  | badCloseCode (hrsvd : ¬P .rsvdBits) (hkind : ¬P .badKind) (hopc : ¬P .badOpcode) (h : P .badCloseCode) :
      FirstCause P (.error .badCloseCode)
  | tooLong (hrsvd : ¬P .rsvdBits) (hkind : ¬P .badKind) (hopc : ¬P .badOpcode) (hcode : ¬P .badCloseCode)
      (h : P .tooLong) : FirstCause P (.error .tooLong)
  | none (hrsvd : ¬P .rsvdBits) (hkind : ¬P .badKind) (hopc : ¬P .badOpcode) (hcode : ¬P .badCloseCode)
      (hlen : ¬P .tooLong) (r : Request) : FirstCause P (.ok r)

/-- The cases of the order exclude each other, so each outcome tells which case it is. -/
theorem firstCause_iff {P : Cause → Prop} {res : Except Cause Request} (h : FirstCause P res) :
    (res = .error .rsvdBits ↔ P .rsvdBits) ∧
    (res = .error .badKind ↔ ¬P .rsvdBits ∧ P .badKind) ∧
    (res = .error .badOpcode ↔ ¬P .rsvdBits ∧ ¬P .badKind ∧ P .badOpcode) ∧
    (res = .error .badCloseCode ↔ ¬P .rsvdBits ∧ ¬P .badKind ∧ ¬P .badOpcode ∧ P .badCloseCode) ∧
    (res = .error .tooLong ↔ ¬P .rsvdBits ∧ ¬P .badKind ∧ ¬P .badOpcode ∧ ¬P .badCloseCode ∧ P .tooLong) ∧
    ((∃ r, res = .ok r) ↔ ¬P .rsvdBits ∧ ¬P .badKind ∧ ¬P .badOpcode ∧ ¬P .badCloseCode ∧ ¬P .tooLong) := by
  cases h <;> simp [*]

/-- The tests of `Resolve` stand in the order of R197. -/
theorem resolve_firstCause {m : Nat} (hlo : Config.minMaxlen ≤ m) (hhi : m ≤ Config.maxMaxlen) (cw0 cw1 : Word) :
    FirstCause (Meets m cw0 cw1) (resolve m cw0 cw1) := by
  by_cases hrsvd : Meets m cw0 cw1 .rsvdBits
  · rw [resolve_of_decode_error (decode_rsvdBits cw1 (meets_rsvdBits_iff.mp hrsvd))]
    exact .rsvdBits hrsvd
  have hclear : rsvdSet cw0 = false := by rwa [meets_rsvdBits_iff, Bool.not_eq_true] at hrsvd
  by_cases hkind : Meets m cw0 cw1 .badKind
  · rw [resolve_of_decode_error (decode_badKind cw1 hclear (meets_badKind_iff.mp hkind))]
    exact .badKind hrsvd hkind
  by_cases hopc : Meets m cw0 cw1 .badOpcode
  · have ⟨h0, hmem⟩ := hopc
    rw [resolve_badOpcode hclear h0 ((validOpcode_false_iff _).mpr hmem)]
    exact .badOpcode hrsvd hkind hopc
  by_cases hcode : Meets m cw0 cw1 .badCloseCode
  · have ⟨h3, hcodev, hlt⟩ := hcode
    rw [resolve_badCloseCode hclear h3 hcodev hlt]
    exact .badCloseCode hrsvd hkind hopc hcode
  have hlt : (kindOf cw0).toNat < 6 := by rwa [meets_badKind_iff, Nat.not_le] at hkind
  rw [resolve_of_not_meets hrsvd hkind hopc hcode]
  by_cases hlen : Meets m cw0 cw1 .tooLong
  · rw [emitFrame_tooLong ((exceeds_iff hlo hhi _).mpr ((meets_tooLong_iff hlt).mp hlen))]
    exact .tooLong hrsvd hkind hopc hcode hlen
  · rw [emitFrame_ok (by rwa [← Bool.not_eq_true, exceeds_iff hlo hhi, ← meets_tooLong_iff hlt])]
    exact .none hrsvd hkind hopc hcode hlen _

/-- Settles O19: the tests of `Resolve` stand in the order of the causes, and RESET leaves every port alone. -/
theorem errorPriority : Obligations.ErrorPriority := by
  intro m cw0 cw1 hlo hhi
  obtain ⟨hrsvd, hkind, hopc, hcode, hlen, hok⟩ := firstCause_iff (resolve_firstCause hlo hhi cw0 cw1)
  exact ⟨hrsvd, hkind, hopc, hcode, hlen, hok, fun s hline => ⟨s.takeInputs.resetStep, step_reset hline, rfl⟩⟩

/-! ### Refused commands (R193 to R195, R198) -/

section
variable {s : State} {c : Command} {rest : List Command} {i : Instr}

/-- A command whose descriptor resolves to an error takes the error entry, with no key and no source byte (R172). -/
theorem exec_refused {cause : Cause} (hr : resolve Config.maxlen (encode i).1 (encode i).2 = .error cause)
    (hphase : s.enc.phase = .idle) (hcmd : s.env.cmd = c :: rest) :
    ∃ t, exec i s = .next t ∧ Refused cause rest s t :=
  ⟨s.takeError cause rest, by rw [execAgreesWithResolve, hr, accept_error hphase hcmd], rfl, rfl⟩

/-- A command whose payload is above `MAXLEN` is refused as too long (R195). -/
theorem exec_refused_of_tooLong {fin mask : Bool} {opc : BitVec 4} {pfx : List Byte} {n : Nat}
    (hr : resolve Config.maxlen (encode i).1 (encode i).2 = emitFrame Config.maxlen fin opc mask pfx n)
    (hlen : Config.maxlen < pfx.length + n) (hphase : s.enc.phase = .idle) (hcmd : s.env.cmd = c :: rest) :
    ∃ t, exec i s = .next t ∧ Refused .tooLong rest s t :=
  exec_refused (hr.trans (emitFrame_tooLong ((exceeds_maxlen_iff _).mpr hlen))) hphase hcmd

end

/-- Settles O16: the descriptor meets the cause of its opcode and none before it. -/
theorem reservedOpcodeRefused : Obligations.ReservedOpcodeRefused := by
  intro s fin masked opc len c rest hphase hcmd hopc
  refine exec_refused (resolve_badOpcode (rsvdSet_pack ..) (kindOf_pack ..) ?_) hphase hcmd
  rw [encode, opcOf_pack, validOpcode_false_iff]
  exact hopc

/-- Settles O17: the descriptor carries all 32 bits of the code, so it meets the cause of its code and none before it. -/
theorem unrepresentableCloseCodeRefused : Obligations.UnrepresentableCloseCodeRefused := by
  intro s masked code len c rest hphase hcmd hcode
  refine exec_refused (resolve_badCloseCode (rsvdSet_pack ..) (kindOf_pack ..) (codevOf_pack ..) ?_) hphase hcmd
  rw [encode, codeOf_pack]
  exact hcode

/-- Settles O18: each of the five commands resolves to a frame of `LEN` source bytes, CLOSE with the code's two before them. -/
theorem oversizedPayloadRefused : Obligations.OversizedPayloadRefused := by
  intro s masked fin first opc code len c rest hphase hcmd
  refine ⟨fun hlen => ?_, fun hlen hcode h1005 => ?_⟩
  · have hlen' : Config.maxlen < ([] : List Byte).length + len.toNat := by simpa using hlen
    refine ⟨fun hopc => ?_, ?_, ?_, ?_⟩
    · exact exec_refused_of_tooLong (resolve_encode_synth _ _ _ _ hopc) hlen' hphase hcmd
    · exact exec_refused_of_tooLong (resolve_encode_text ..) hlen' hphase hcmd
    · exact exec_refused_of_tooLong (resolve_encode_binary ..) hlen' hphase hcmd
    · exact exec_refused_of_tooLong (resolve_encode_pong ..) hlen' hphase hcmd
  · exact exec_refused_of_tooLong (resolve_encode_close_code _ _ _ hcode h1005) hlen hphase hcmd

end Sys2Proof.Machine
end

section
/-!
PROOFS. Reset and hazards (spec 70_reset_and_hazards.md): RESET from every state (R220), the machine before the first RESET
(R223), and the key of a frame in flight, which header and masker share (R224).
-/

namespace Sys2Proof.Machine

/-! ### RESET (R220, R223) -/

/-- Settles O26: the asserted signal enables `resetStep`, which writes the reset registers over whatever stood there. -/
theorem resetStep : Obligations.ResetStep :=
  fun s hline => ⟨s.takeInputs.resetStep, step_reset hline, rfl, rfl, rfl, rfl, rfl, rfl, rfl, sameValues_refl _⟩

/-- Settles O28: `PHASE` without a value enables no step of the encoder's own, and RESET asks for no phase. -/
theorem nothingBeforeFirstReset : Obligations.NothingBeforeFirstReset :=
  fun s hphase =>
    ⟨fun hline => step_noValue hline (takeInputs_enc s ▸ hphase),
     fun hline => ⟨s.takeInputs.resetStep, step_reset hline, rfl⟩⟩

/-! ### The key of a frame in flight (R224) -/

/-- A step that begins and ends inside a frame moves only the phase and the indexes: RESET and the last byte end the frame,
and the other steps are holds and emitted bytes. -/
theorem step_inFrame {s t : State} (hstep : step s = .next t) (hbusy : s.takeInputs.enc.busy = true)
    (hbusy' : t.enc.busy = true) :
    ∃ phase hidx pidx, t.enc = { s.takeInputs.enc with phase, hidx, pidx } := by
  have hsteps := step_next hstep
  rw [← takeInputs_enc s] at hsteps
  obtain ⟨-, rfl⟩ | ⟨-, ⟨hphase, -⟩ | ⟨hphase, hhdr⟩ | ⟨hphase, hpay⟩⟩ := hsteps
  · cases hbusy'
  · exact absurd hphase ((busy_iff _).mp hbusy)
  · obtain ⟨-, rfl⟩ | ⟨-, b, -, rfl⟩ := emitHdr_next hhdr
    · exact ⟨_, _, _, rfl⟩
    · exact advances_busy (afterHdr_advances hphase) hbusy'
  · obtain ⟨-, rfl⟩ | ⟨-, rfl⟩ | ⟨-, b, m, -, -, rfl⟩ := emitPay_next hpay
    · exact ⟨_, _, _, rfl⟩
    · exact ⟨_, _, _, rfl⟩
    · exact advances_busy (afterPay_advances hphase) hbusy'

/-- The key is the end of a masked header (R131). -/
theorem header_drop_key (fin : Bool) (opc : BitVec 4) (key : Key) (pl : Nat) :
    (header fin opc (some key) pl).drop ((header fin opc (some key) pl).length - 4) = key.toList :=
  List.drop_left' (by simp [header, keyBytes_length])

/-- In flight, `KV` is the masked flag (R22), so a masked frame has its key. -/
theorem frameInFlight_key {e : Encoder} (h : FrameInFlight e) (hmask : e.qMask = true) : ∃ key, e.k = some key :=
  Option.isSome_iff_exists.mp (h.key.trans hmask)

/-- The header in flight was built from `K`, so it ends with the key the masker takes. -/
theorem frameInFlight_hbuf_drop {e : Encoder} (h : FrameInFlight e) {key : Key} (hkey : e.k = some key) :
    e.hbuf.drop (e.hlen.toNat - 4) = key.toList := by
  rw [← h.hbufLen, h.hbuf, hkey, header_drop_key]

/-- Settles O38: inside a frame only the phase and the indexes move, and header and masker have the one key of `K`. -/
theorem keyStableInFlight : Obligations.KeyStableInFlight := by
  constructor
  · intro s t hbusy hbusy' hstep
    obtain ⟨phase, hidx, pidx, henc⟩ := step_inFrame hstep hbusy hbusy'
    rw [henc]
    exact ⟨rfl, rfl, rfl, rfl, rfl⟩
  · intro s h hbusy hmask
    have hframe : FrameInFlight s.enc := h.flight (inFlight_of_busy h hbusy)
    obtain ⟨key, hkey⟩ := frameInFlight_key hframe hmask
    exact ⟨key, hkey, frameInFlight_hbuf_drop hframe hkey, maskByte_masked hmask hkey⟩

end Sys2Proof.Machine
end
